-- ==== Sys2Proof/Word.lean ====
section
/-! DEFINITION. The two word types of the core (R66): `Byte` and `Code`, both unsigned. -/

namespace Sys2Proof

/-- R66: an unsigned 8-bit number, format `BYTE8` (R50). -/
abbrev Byte := BitVec 8

/-- R5, R66: an unsigned 16-bit number, format `CODE16` (R51). -/
abbrev Code := BitVec 16

end Sys2Proof
end

