-- ==== Sys2Proof/Config.lean ====
section
/-! DEFINITION. The constants of the core (R5 to R9, R12) and the free values (log 5). -/

namespace Sys2Proof.Config

/-- R5: `CODE_WIDTH`. -/
abbrev codeWidth : Nat := 16

/-- R6: `CLEAR`, the sentinel, the greatest 16-bit number. -/
abbrev clear : Code := 0xFFFF#16

/-- R7: `CAPACITY`, the most entries a dictionary holds. -/
abbrev capacity : Nat := 65535

/-- R8: `ALPHABET`, the number of base entries. -/
abbrev alphabet : Nat := 256

/-- R8: `FIRST_LEARNED`, the first code that is not a base code. -/
abbrev firstLearned : Nat := 256

/-- R9: `MAX_CODE`, the greatest assignable code. -/
abbrev maxCode : Code := 0xFFFE#16

/-- Free value, no body: what `dec.k` holds after `DEC.START`, which R90 and R141 leave unspecified
(DESIGN CHOICE of form, log 5; safe). Applied to the counter `State.freeIdx`. -/
opaque freeCode : Nat → Code

/-- Free value, no body: what `dec.hold` holds after `DEC.START`, which R90 and R141 leave unspecified
(DESIGN CHOICE of form, log 5; safe). Applied to the counter `State.freeIdx`. -/
opaque freeByte : Nat → Byte

end Sys2Proof.Config
end

