-- ==== Sys2Proof/Syntax.lean ====
section
/-! DEFINITION. The operations of the core: one constructor per row of spec/opcode_table.json (R57). -/

namespace Sys2Proof

/-- R11, R27: the mode selector. `compress` is 0, `decompress` is 1 (`modeBit` in Machine/Flags.lean). -/
inductive Mode where
  | compress
  | decompress
  deriving DecidableEq, Repr

/-- R57: the operation set. The external operations come first, then `DEC.CODE` by static class
(R55), then the internal operations. -/
inductive Instr where
  /-- `SYS.SELECT m`, R110. -/
  | sysSelect (m : Mode)
  /-- `ENC.START`, R80. -/
  | encStart
  /-- `ENC.BYTE c`, R81. -/
  | encByte (c : Byte)
  /-- `ENC.END`, R85. -/
  | encEnd
  /-- `DEC.START`, R90. -/
  | decStart
  /-- `DEC.IN b`, R91. -/
  | decIn (b : Byte)
  /-- `DEC.END`, R102. -/
  | decEnd
  /-- `T10` kind `0b11`, R58, R112: no operation. -/
  | t10Reserved
  /-- `DEC.CODE k` with `k` in 0..255, R92. -/
  | decCodeBase (k : Code)
  /-- `DEC.CODE k` with `k` in 256..65534, R92. -/
  | decCodeLearned (k : Code)
  /-- `DEC.CODE 65535`, R94. -/
  | decCodeClear
  /-- `RESEED` in the encoder, R75. -/
  | reseedEnc
  /-- `RESEED` in the decoder, R76. -/
  | reseedDec
  /-- `REBUILD n`, R100. -/
  | rebuild (n : Code)
  /-- `OUT.CODE v`, R88. -/
  | outCode (v : Code)
  deriving DecidableEq, Repr

end Sys2Proof
end

