-- ==== Sys2Proof/Machine/State.lean ====
section
/-! DEFINITION. The state of the core (10_state.md, 20_memory.md), the reasons a step can stop, and the
state after power-on. -/

namespace Sys2Proof.Machine

/-- R23: the phase of a machine. -/
inductive Phase where
  | idle
  | run
  | done
  | fault
  deriving DecidableEq, Repr

/-- R10: the order of the two bytes of a code on the wire. -/
inductive ByteOrder where
  | le
  | be
  deriving DecidableEq, Repr

/-- R2: the two machines. -/
inductive Agent where
  | encoder
  | decoder
  deriving DecidableEq, Repr

/-- R123: which channel a transport failure struck. -/
inductive Channel where
  | input
  | output
  deriving DecidableEq, Repr

/-- R123: the collaborator's own error value, opaque to the core: no operation looks inside (log 21). -/
structure HostError where
  value : Nat
  deriving DecidableEq, Repr

/-- R24, R120: the fault register, kind and information together. The numeric kinds are in
Machine/Flags.lean. -/
inductive FaultRecord where
  /-- Kind 0: no fault. -/
  | none
  /-- Kind 1, R121. -/
  | invalidCode (code : Code) (size offset : Nat)
  /-- Kind 2, R122. -/
  | corruptStream (offset : Nat)
  /-- Kind 3, R123. -/
  | transport (error : HostError) (channel : Channel)
  /-- Kind 4, R124. -/
  | emptyPrefix (code : Code) (offset : Nat)
  /-- Kind 5, R125. -/
  | badPrefix (code stuckAt : Code) (offset : Nat)
  deriving DecidableEq, Repr

/-- R15: one pair of the encoder store, key `(pre, byte)` and assigned code. -/
structure EncEntry where
  pre : Code
  byte : Byte
  code : Code
  deriving DecidableEq, Repr

/-- R19, R34: one record of the decoder store; its code is its position. -/
structure DecRecord where
  pre : Code
  byte : Byte
  deriving DecidableEq, Repr

/-- R13(a): the encoder set. `enc.size` is computed from `dict` (R16, log 7). -/
structure Enc where
  /-- R14. -/
  i : Code
  /-- R15, R33: the inserted pairs in order (log 20). -/
  dict : List EncEntry
  /-- R23. -/
  phase : Phase
  /-- R24. -/
  fault : FaultRecord
  /-- R25. -/
  inPos : Nat
  /-- R25. -/
  outCodes : Nat
  deriving DecidableEq, Repr

/-- R13(b): the decoder set. `dec.size` is computed from `dict` (R20, log 7). -/
structure Dec where
  /-- R17. -/
  i : Code
  /-- R18. -/
  k : Code
  /-- R19, R34: the record of code `n` is at position `n`. -/
  dict : List DecRecord
  /-- R21. -/
  hold : Byte
  /-- R21. -/
  holdValid : Bool
  /-- R22: `dec.s`. -/
  str : List Byte
  /-- R23. -/
  phase : Phase
  /-- R24. -/
  fault : FaultRecord
  /-- R25. -/
  inPos : Nat
  /-- R25. -/
  codeIdx : Nat
  /-- R25. -/
  outPos : Nat
  deriving DecidableEq, Repr

/-- R57, R58, R38: one event the collaborator delivers. -/
inductive HostEvent where
  /-- A `MODE1` word on the mode selector (R110). -/
  | select (w : BitVec 1)
  /-- A `T10` word on the input side of the machine `MODE` selects (R58). -/
  | transaction (w : BitVec 10)
  /-- A whole code, standing for its two wire bytes (R57, R63, log 13). -/
  | code (w : BitVec 16)
  /-- The collaborator reports a read failure to `InByte` (R38, R123). -/
  | readFailure (e : HostError)
  deriving DecidableEq, Repr

/-- R39: the collaborator's answer to one `OutByte`. -/
inductive SinkReply where
  | accept
  | fail (e : HostError)
  deriving DecidableEq, Repr

/-- The core and the two channels it is connected to. -/
structure State where
  /-- R27. -/
  mode : Mode
  /-- R10, R13(c): configuration; no operation writes it (log 6). -/
  byteOrder : ByteOrder
  /-- R13(a). -/
  enc : Enc
  /-- R13(b). -/
  dec : Dec
  /-- R30, R38: the events the collaborator has ready, oldest first (log 8). -/
  input : List HostEvent
  /-- R39, R123: the answers to the coming `OutByte` calls, next first; none listed is accept (log 10). -/
  sink : List SinkReply
  /-- R30, R39: the bytes written so far, oldest first (log 9). -/
  output : List Byte
  /-- The model's own: the counter of free values (log 5). -/
  freeIdx : Nat
  deriving DecidableEq, Repr

/-- Why the model stops where the spec gives no value. -/
inductive Fault where
  /-- Raised by `DEC.CODE` when the string whose first byte it needs is empty. That takes the code
  `CLEAR` to be below `dec.size`, so more than 65535 records, which no run reaches (R29 item 1, R97).
  Safe (log 19). -/
  | noFirstByte
  deriving DecidableEq, Repr

/-- Why an event has no step (R112): the state does not change. -/
inductive Refusal where
  /-- An instruction with no meaning yet, by its row's mnemonic. Safe. -/
  | notModelled (mnemonic : String)
  /-- Raised by every operation of a machine that `MODE` does not select (R112). Safe. -/
  | notSelected (a : Agent)
  /-- Raised by a data operation, `END`, `DEC.CODE` or a read failure outside `RUN` (R112). Safe. -/
  | notRunning (a : Agent)
  /-- Raised by `START` of a machine that is in `RUN` (R112). Safe. -/
  | alreadyRunning (a : Agent)
  /-- Raised by `SYS.SELECT` while a machine is in `RUN` (R110, R112). Safe. -/
  | selectDuringRun
  /-- Raised by the reserved `T10` kind `0b11` (R58, R112). Safe. -/
  | reservedKind
  /-- Raised by step when a whole code is delivered while half a code is held: a code cannot be
  presented misaligned (R41, log 13). Safe. -/
  | misalignedCode
  /-- Raised by step when the collaborator has delivered nothing: the core waits (R135, R137, log 16). Safe. -/
  | noEvent
  deriving DecidableEq, Repr

/-- What one operation answers. -/
abbrev Result := Host.Outcome State Fault Refusal

/-- Field updates, each with its lemmas in Laws/State.lean. -/
def State.withMode (s : State) (m : Mode) : State := { s with mode := m }

/-- Update of the encoder set. -/
def State.withEnc (s : State) (e : Enc) : State := { s with enc := e }

/-- Update of the decoder set. -/
def State.withDec (s : State) (d : Dec) : State := { s with dec := d }

/-- Update of the input channel. -/
def State.withInput (s : State) (l : List HostEvent) : State := { s with input := l }

/-- Update of the sink's answers. -/
def State.withSink (s : State) (l : List SinkReply) : State := { s with sink := l }

/-- Update of the output channel. -/
def State.withOutput (s : State) (l : List Byte) : State := { s with output := l }

/-- Update of the free-value counter. -/
def State.withFreeIdx (s : State) (n : Nat) : State := { s with freeIdx := n }

/-- The encoder set at power-on: R140 gives the phase; the rest is DESIGN CHOICE (logs 3, 4). -/
def Enc.reset : Enc :=
  { i := Config.clear, dict := [], phase := .idle, fault := .none, inPos := 0, outCodes := 0 }

/-- The decoder set at power-on: R140 gives the phase; the rest is DESIGN CHOICE (logs 3, 4). -/
def Dec.reset : Dec :=
  { i := Config.clear, k := 0#16, dict := [], hold := 0#8, holdValid := false, str := [],
    phase := .idle, fault := .none, inPos := 0, codeIdx := 0, outPos := 0 }

/-- R140: the state after power-on. Both machines are `IDLE` (the spec's); `BYTE_ORDER` is `LE` (R10);
everything else is unspecified by the spec and named here (DESIGN CHOICE, logs 1 to 4, unsafe). -/
def State.reset : State :=
  { mode := .compress, byteOrder := .le, enc := Enc.reset, dec := Dec.reset,
    input := [], sink := [], output := [], freeIdx := 0 }

end Sys2Proof.Machine
end

