-- ==== Sys2Proof/Machine/Flags.lean ====
section
/-! DEFINITION. The flags of the core. The fault record is the only one (R24): there are no condition
codes. The numeric values are the spec's decision D5 (R27, R120). -/

namespace Sys2Proof.Machine

/-- R120: the numeric code held in `fault.kind`. -/
def FaultRecord.kind : FaultRecord → Nat
  | .none => 0
  | .invalidCode _ _ _ => 1
  | .corruptStream _ => 2
  | .transport _ _ => 3
  | .emptyPrefix _ _ => 4
  | .badPrefix _ _ _ => 5

/-- R24: whether a fault is recorded. -/
def FaultRecord.raised (f : FaultRecord) : Bool := decide (f.kind ≠ 0)

/-- R27: the numeric value of `MODE`. -/
def modeBit : Mode → BitVec 1
  | .compress => 0#1
  | .decompress => 1#1

/-- R121, R124, R125: the wire offset of the first byte of the code of the step in progress. -/
def codeOffset (d : Dec) : Nat := 2 * d.codeIdx

end Sys2Proof.Machine
end

