-- ==== Sys2Proof/Machine/Operands.lean ====
section
/-! DEFINITION. The operand forms: bytes, codes, the two wire bytes of a code in either byte order
(R50 to R54, R69, R88), and the classes of a code (R55, R56). -/

namespace Sys2Proof.Machine

/-- R67, R69(d): `zext_16`. -/
def zext16 (b : Byte) : Code := b.setWidth 16

/-- R54: the base code of a byte is the byte's own value. -/
def baseCode (c : Byte) : Code := zext16 c

/-- R69(e): `bits[7:0]` of a code. -/
def codeLow (v : Code) : Byte := v.extractLsb' 0 8

/-- R69(e): `bits[15:8]` of a code. -/
def codeHigh (v : Code) : Byte := v.extractLsb' 8 8

/-- R40, R52, R88: the first of a code's two wire bytes. -/
def wireFirst (o : ByteOrder) (v : Code) : Byte :=
  match o with
  | .le => codeLow v
  | .be => codeHigh v

/-- R40, R52, R88: the second of a code's two wire bytes. -/
def wireSecond (o : ByteOrder) (v : Code) : Byte :=
  match o with
  | .le => codeHigh v
  | .be => codeLow v

/-- R52: the wire bytes of a list of codes, in stream order. -/
def wireBytes (o : ByteOrder) : List Code → List Byte
  | [] => []
  | v :: vs => wireFirst o v :: wireSecond o v :: wireBytes o vs

/-- R53, R91: the code two consecutive wire bytes stand for. -/
def assembleCode (o : ByteOrder) (b0 b1 : Byte) : Code :=
  match o with
  | .le => zext16 b0 + 256#16 * zext16 b1
  | .be => 256#16 * zext16 b0 + zext16 b1

/-- R55: the static class of a code, by value alone. -/
inductive StaticClass where
  | base
  | learned
  | clear
  deriving DecidableEq, Repr

/-- R55. -/
def staticClass (k : Code) : StaticClass :=
  if k.toNat < Config.alphabet then .base
  else if k = Config.clear then .clear
  else .learned

/-- R56: the dynamic class of a decoder input code against the entry count. -/
inductive DynamicClass where
  | known
  | self
  | invalid
  deriving DecidableEq, Repr

/-- R56, R69(b): unsigned comparison with the count as it is after the capacity check. -/
def dynamicClass (k : Code) (size : Nat) : DynamicClass :=
  if size < k.toNat then .invalid
  else if k.toNat = size then .self
  else .known

end Sys2Proof.Machine
end

