-- ==== Sys2Proof/Machine/Ops.lean ====
section
/-! DEFINITION. The named operations over the stores, the channels and the fault register: the
pseudocode primitives of R67, taking a fault (R130), and the guards of R112. -/

namespace Sys2Proof.Machine

/-! ### The base alphabet and the entry counts -/

/-- R72, R148: the 256 byte values in unsigned ascending order. -/
def allBytes : List Byte := (List.range Config.alphabet).map (BitVec.ofNat 8)

/-- R72: the base alphabet in the encoder store, `(CLEAR, b) -> zext_16(b)`. -/
def encBase : List EncEntry := allBytes.map fun b => { pre := Config.clear, byte := b, code := zext16 b }

/-- R72: the base alphabet in the decoder store, `(CLEAR, b)` at index `b`. -/
def decBase : List DecRecord := allBytes.map fun b => { pre := Config.clear, byte := b }

/-- R16: `enc.size`, the number of pairs (log 7). -/
def Enc.size (e : Enc) : Nat := e.dict.length

/-- R20: `dec.size`, the number of records (log 7). -/
def Dec.size (d : Dec) : Nat := d.dict.length

/-! ### The two stores -/

/-- R31: the code stored under key `(p, b)`, or none. -/
def encLookup (p : Code) (b : Byte) (dict : List EncEntry) : Option Code :=
  (dict.find? fun e => decide (e.pre = p ∧ e.byte = b)).map EncEntry.code

/-- R32: adds key `(p, b)` with value `n`. -/
def encInsert (p : Code) (b : Byte) (n : Code) (dict : List EncEntry) : List EncEntry :=
  dict ++ [{ pre := p, byte := b, code := n }]

/-- R74: the next code, the entry count before the insertion. Truncated at 16 bits, which no run
reaches (R71, log 25). -/
def nextCode (size : Nat) : Code := BitVec.ofNat 16 size

/-- R35: the record at index `n`; no value at or beyond the count. -/
def decRead (n : Code) (dict : List DecRecord) : Option DecRecord := dict[n.toNat]?

/-- R36: puts record `(p, b)` at index `dec.size`. -/
def decAppend (p : Code) (b : Byte) (dict : List DecRecord) : List DecRecord :=
  dict ++ [{ pre := p, byte := b }]

/-- The canonical form of the encoder store: codes strictly rising, and no key twice, so that two
stores in this form that answer every lookup alike are the same list (log 20). The decoder store is
canonical by its shape: a record's position is its code (R34). -/
abbrev Memory.wf (dict : List EncEntry) : Prop :=
  dict.Pairwise fun a b => a.code.toNat < b.code.toNat ∧ ¬(a.pre = b.pre ∧ a.byte = b.byte)

/-- R75: `RESEED` in the encoder: the store and nothing else. -/
def reseedEncoder (s : State) : State := s.withEnc { s.enc with dict := encBase }

/-- R76: `RESEED` in the decoder: the store and nothing else. -/
def reseedDecoder (s : State) : State := s.withDec { s.dec with dict := decBase }

/-- R77, R82: the capacity check of `ENC.BYTE`. -/
def encCapacityCheck (s : State) : State :=
  if s.enc.size = Config.capacity then reseedEncoder s else s

/-- R77, R93: the capacity check of `DEC.CODE`. -/
def decCapacityCheck (s : State) : State :=
  if s.dec.size = Config.capacity then reseedDecoder s else s

/-! ### Taking a fault -/

/-- R130: `raise F(info)`: the fault register and the phase of the machine, and nothing else. There is
no return (R132): only `START` leaves `FAULT`, and it clears the register. -/
def raise (a : Agent) (f : FaultRecord) (s : State) : State :=
  match a with
  | .encoder => s.withEnc { s.enc with fault := f, phase := .fault }
  | .decoder => s.withDec { s.dec with fault := f, phase := .fault }

/-- R130: how far an operation has come. -/
inductive Flow where
  /-- The operation goes on from this state. -/
  | go (s : State)
  /-- A `raise` has abandoned the operation; this is the state it left. -/
  | raised (s : State)
  /-- The spec gives no value to go on with. -/
  | stuck (f : Fault)
  deriving DecidableEq, Repr

/-- R130: nothing after a `raise` runs. -/
def Flow.andThen (x : Flow) (rest : State → Flow) : Flow :=
  match x with
  | .go s => rest s
  | .raised s => .raised s
  | .stuck f => .stuck f

/-- The end of an operation: a raised fault is a next state, with the fault recorded (R130). -/
def Flow.finish : Flow → Result
  | .go s => .next s
  | .raised s => .next s
  | .stuck f => .fault f

/-! ### The output channel -/

/-- R39, R123: `OutByte(b)` of machine `a`. -/
def outByte (a : Agent) (b : Byte) (s : State) : Flow :=
  match s.sink with
  | [] => .go (s.withOutput (s.output ++ [b]))
  | .accept :: rest => .go ((s.withSink rest).withOutput (s.output ++ [b]))
  | .fail e :: rest => .raised (raise a (.transport e .output) (s.withSink rest))

/-- R88: `OutCode(v)`, two `OutByte` calls in `BYTE_ORDER`. -/
def outCode (v : Code) (s : State) : Flow :=
  (outByte .encoder (wireFirst s.byteOrder v) s).andThen
    (outByte .encoder (wireSecond s.byteOrder v))

/-- R81, R85: `OutCode(v); enc.out_codes <- enc.out_codes + 1`. -/
def emitCode (v : Code) (s : State) : Flow :=
  (outCode v s).andThen fun t => .go (t.withEnc { t.enc with outCodes := t.enc.outCodes + 1 })

/-- R92 step 4, R98: each byte of `s` in order, counted in `dec.out_pos`. -/
def emitBytes : List Byte → State → Flow
  | [], s => .go s
  | b :: bs, s =>
    (outByte .decoder b s).andThen fun t =>
      emitBytes bs (t.withDec { t.dec with outPos := t.dec.outPos + 1 })

/-! ### The prefix-chain walk -/

/-- R100: what the walk of a prefix chain ends in. -/
inductive Walk where
  /-- The chain reached `CLEAR`: the string, first byte first. -/
  | string (bytes : List Byte)
  /-- The index the walk could not read, or stood at when it gave up (R101, R125). -/
  | broken (x : Code)
  deriving DecidableEq, Repr

/-- R100, R101: the walk with the number of records it may still read. `acc` holds the bytes
collected, the last one first, so it is reversed as it grows (R150). -/
def walkChain (dict : List DecRecord) : Nat → Code → List Byte → Walk
  | 0, x, acc => if x = Config.clear then .string acc else .broken x
  | fuel + 1, x, acc =>
    if x = Config.clear then .string acc
    else
      match decRead x dict with
      | none => .broken x
      | some r => walkChain dict fuel r.pre (r.byte :: acc)

/-- R100: `Rebuild(n)` over a store; it may read as many records as the store holds (R101). -/
def rebuildString (n : Code) (dict : List DecRecord) : Walk := walkChain dict dict.length n []

/-- R100, R101: `Rebuild(n)` inside an operation: the rest of the operation on the string, or
`BadPrefix` with the code of the step in progress. -/
def rebuildThen (n : Code) (s : State) (rest : List Byte → Flow) : Flow :=
  match rebuildString n s.dec.dict with
  | .string t => rest t
  | .broken x => .raised (raise .decoder (.badPrefix s.dec.k x (codeOffset s.dec)) s)

/-- `t[0]` of R92; an empty string has none (log 19). -/
def firstByteThen (t : List Byte) (rest : Byte → Flow) : Flow :=
  match t with
  | [] => .stuck .noFirstByte
  | b :: _ => rest b

/-! ### Which operations are enabled -/

/-- R11, R110: the machine a mode selects. -/
def selectedAgent : Mode → Agent
  | .compress => .encoder
  | .decompress => .decoder

/-- The phase of a machine. -/
def State.phaseOf (s : State) : Agent → Phase
  | .encoder => s.enc.phase
  | .decoder => s.dec.phase

/-- R112: a data operation, `END` or `DEC.CODE` needs its machine selected and in `RUN`. -/
def whenRunning (a : Agent) (s : State) (body : State → Result) : Result :=
  if selectedAgent s.mode ≠ a then .refused (.notSelected a)
  else if s.phaseOf a ≠ .run then .refused (.notRunning a)
  else body s

/-- R80, R90, R112: `START` needs its machine selected and not in `RUN`. -/
def whenStartable (a : Agent) (s : State) (body : State → Result) : Result :=
  if selectedAgent s.mode ≠ a then .refused (.notSelected a)
  else if s.phaseOf a = .run then .refused (.alreadyRunning a)
  else body s

/-- R38, R123, R129: the collaborator reports a read failure to the `InByte` the selected machine
waits in; nothing of the operation has been done. Outside `RUN` no `InByte` is waiting (log 11). -/
def readFailed (e : HostError) (s : State) : Result :=
  whenRunning (selectedAgent s.mode) s fun t =>
    .next (raise (selectedAgent t.mode) (.transport e .input) t)

end Sys2Proof.Machine
end

