-- ==== Sys2Proof/Machine/Decoder.lean ====
section
/-! DEFINITION. The decoder state machine (42_decoder.md). -/

namespace Sys2Proof.Machine

/-- R90: what `DEC.START` leaves. `dec.k` and `dec.hold` are free values (R141, log 5). -/
def startDecoder (s : State) : State :=
  let t := reseedDecoder s
  (t.withDec { t.dec with
    i := Config.clear, holdValid := false, str := [], inPos := 0, codeIdx := 0, outPos := 0,
    fault := .none, phase := .run,
    k := Config.freeCode t.freeIdx, hold := Config.freeByte t.freeIdx }).withFreeIdx (t.freeIdx + 1)

/-- R90: `DEC.START`. -/
def execDecStart (s : State) : Result := whenStartable .decoder s fun t => .next (startDecoder t)

/-- R95, R96, R151: step 3 in the SELF case: walk the previous code, append, then walk `k`. -/
def buildSelf (k : Code) (s : State) : Flow :=
  if s.dec.i = Config.clear then
    .raised (raise .decoder (.emptyPrefix k (codeOffset s.dec)) s)
  else
    rebuildThen s.dec.i s fun t =>
      firstByteThen t fun b =>
        let u := s.withDec { s.dec with dict := decAppend s.dec.i b s.dec.dict }
        rebuildThen k u fun str => .go (u.withDec { u.dec with str := str })

/-- R97, R151: step 3 in the KNOWN case: walk `k`, then append unless there is no previous code. -/
def buildKnown (k : Code) (s : State) : Flow :=
  rebuildThen k s fun str =>
    if s.dec.i = Config.clear then .go (s.withDec { s.dec with str := str })
    else
      firstByteThen str fun b =>
        .go (s.withDec { s.dec with str := str, dict := decAppend s.dec.i b s.dec.dict })

/-- R92 steps 4 and 5: emission, then `dec.i <- k` and the code count (R98, R99). -/
def emitAndAdvance (k : Code) (s : State) : Flow :=
  (emitBytes s.dec.str s).andThen fun t =>
    .go (t.withDec { t.dec with i := k, codeIdx := t.dec.codeIdx + 1 })

/-- R92 steps 2 to 5, on the state after the capacity check (R94, R154). -/
def decodeCode (k : Code) (s : State) : Flow :=
  match dynamicClass k s.dec.size with
  | .invalid => .raised (raise .decoder (.invalidCode k s.dec.size (codeOffset s.dec)) s)
  | .self => (buildSelf k s).andThen (emitAndAdvance k)
  | .known => (buildKnown k s).andThen (emitAndAdvance k)

/-- R92: the whole `DEC.CODE k`, with `dec.k` the code of the step in progress (R18, log 13). -/
def decCodeStep (k : Code) (s : State) : Result :=
  (decodeCode k (decCapacityCheck (s.withDec { s.dec with k := k }))).finish

/-- R92: `DEC.CODE` of a base code. -/
def execDecCodeBase (k : Code) (s : State) : Result := whenRunning .decoder s (decCodeStep k)

/-- R92: `DEC.CODE` of a learned code. -/
def execDecCodeLearned (k : Code) (s : State) : Result := whenRunning .decoder s (decCodeStep k)

/-- R92, R94: `DEC.CODE` of `CLEAR`. -/
def execDecCodeClear (s : State) : Result := whenRunning .decoder s (decCodeStep Config.clear)

/-- R91: `DEC.IN b`: hold the first byte of a code; on the second run `DEC.CODE`. -/
def execDecIn (b : Byte) (s : State) : Result :=
  whenRunning .decoder s fun t =>
    let u := t.withDec { t.dec with inPos := t.dec.inPos + 1 }
    if u.dec.holdValid then
      decCodeStep (assembleCode u.byteOrder u.dec.hold b) (u.withDec { u.dec with holdValid := false })
    else .next (u.withDec { u.dec with hold := b, holdValid := true })

/-- R102: `DEC.END`. -/
def execDecEnd (s : State) : Result :=
  whenRunning .decoder s fun t =>
    if t.dec.holdValid then .next (raise .decoder (.corruptStream (t.dec.inPos - 1)) t)
    else .next (t.withDec { t.dec with phase := .done })

/-- R100, R101: `REBUILD n` as an operation of its own: its result stands in `dec.s` (log 12). -/
def execRebuild (n : Code) (s : State) : Result :=
  (rebuildThen n s fun str => .go (s.withDec { s.dec with str := str })).finish

end Sys2Proof.Machine
end

