-- ==== Sys2Proof/Machine/Encoder.lean ====
section
/-! DEFINITION. The encoder state machine (41_encoder.md). -/

namespace Sys2Proof.Machine

/-- R80: what `ENC.START` leaves. -/
def startEncoder (s : State) : State :=
  let t := reseedEncoder s
  t.withEnc { t.enc with i := Config.clear, inPos := 0, outCodes := 0, fault := .none, phase := .run }

/-- R80: `ENC.START`. -/
def execEncStart (s : State) : Result := whenStartable .encoder s fun t => .next (startEncoder t)

/-- R83: the miss case: insert, emit the previous match unless it is `CLEAR`, start again from `c`.
The base code of `c` is its own value (R54, log 17). -/
def encMiss (c : Byte) (s : State) : Flow :=
  let t := s.withEnc { s.enc with dict := encInsert s.enc.i c (nextCode s.enc.size) s.enc.dict }
  (if s.enc.i = Config.clear then Flow.go t else emitCode s.enc.i t).andThen fun u =>
    .go (u.withEnc { u.enc with i := baseCode c, inPos := u.enc.inPos + 1 })

/-- R84: the hit case: extend the match. -/
def encHit (r : Code) (s : State) : Flow :=
  .go (s.withEnc { s.enc with i := r, inPos := s.enc.inPos + 1 })

/-- R81: the step after its capacity check: the lookup, then the miss or the hit. -/
def encLookupStep (c : Byte) (s : State) : Flow :=
  match encLookup s.enc.i c s.enc.dict with
  | none => encMiss c s
  | some r => encHit r s

/-- R81: `ENC.BYTE c`. -/
def execEncByte (c : Byte) (s : State) : Result :=
  whenRunning .encoder s fun t => (encLookupStep c (encCapacityCheck t)).finish

/-- R85: `ENC.END`. -/
def execEncEnd (s : State) : Result :=
  whenRunning .encoder s fun t =>
    ((if t.enc.i = Config.clear then Flow.go t else emitCode t.enc.i t).andThen fun u =>
      .go (u.withEnc { u.enc with phase := .done })).finish

/-- R88: `OUT.CODE v` as an operation of its own (log 12). -/
def execOutCode (v : Code) (s : State) : Result := (outCode v s).finish

end Sys2Proof.Machine
end

