-- ==== Sys2Proof/Machine/Lifecycle.lean ====
section
/-! DEFINITION. `RESEED` as an operation of its own (R75, R76, log 12). The external operations run the
same shared operations, `reseedEncoder` and `reseedDecoder`, when R77 says. -/

namespace Sys2Proof.Machine

/-- R75. -/
def execReseedEnc (s : State) : Result := .next (reseedEncoder s)

/-- R76. -/
def execReseedDec (s : State) : Result := .next (reseedDecoder s)

end Sys2Proof.Machine
end

