-- ==== Sys2Proof/Machine/System.lean ====
section
/-! DEFINITION. The system operations: `SYS.SELECT` (R110) and the reserved `T10` kind (R58, R112). -/

namespace Sys2Proof.Machine

/-- R110, R112: `SYS.SELECT m`, enabled when neither machine is in `RUN`. -/
def execSysSelect (m : Mode) (s : State) : Result :=
  if s.enc.phase = .run ∨ s.dec.phase = .run then .refused .selectDuringRun
  else .next (s.withMode m)

/-- R58, R112: `T10` kind `0b11` is no operation and is refused. -/
def execT10Reserved (_s : State) : Result := .refused .reservedKind

end Sys2Proof.Machine
end

