-- ==== Sys2Proof/Machine/Dispatch.lean ====
section
/-! DEFINITION. One arm per operation. -/

namespace Sys2Proof.Machine

/-- The meaning of each operation (R57). -/
def exec (i : Instr) (s : State) : Host.Outcome State Fault Refusal :=
  match i with
  | .sysSelect m => Sys2Proof.Machine.execSysSelect m s
  | .encStart => Sys2Proof.Machine.execEncStart s
  | .encByte c => Sys2Proof.Machine.execEncByte c s
  | .encEnd => Sys2Proof.Machine.execEncEnd s
  | .decStart => Sys2Proof.Machine.execDecStart s
  | .decIn b => Sys2Proof.Machine.execDecIn b s
  | .decEnd => Sys2Proof.Machine.execDecEnd s
  | .t10Reserved => Sys2Proof.Machine.execT10Reserved s
  | .decCodeBase k => Sys2Proof.Machine.execDecCodeBase k s
  | .decCodeLearned k => Sys2Proof.Machine.execDecCodeLearned k s
  | .decCodeClear => Sys2Proof.Machine.execDecCodeClear s
  | .reseedEnc => Sys2Proof.Machine.execReseedEnc s
  | .reseedDec => Sys2Proof.Machine.execReseedDec s
  | .rebuild n => Sys2Proof.Machine.execRebuild n s
  | .outCode v => Sys2Proof.Machine.execOutCode v s

end Sys2Proof.Machine
end

