-- ==== Sys2Proof/WellFormed.lean ====
section
/-! DEFINITION. Which terms of `Instr` stand for an operation of the core (R55, R57). -/

namespace Sys2Proof

/-- The static class bounds of R55 for the two `DEC.CODE` rows that carry their code. Every other
operand takes every value of its width (R50, R51, R57). -/
def WellFormed : Instr → Bool
  | .decCodeBase k => decide (k.toNat < Config.alphabet)
  | .decCodeLearned k => decide (Config.firstLearned ≤ k.toNat) && decide (k.toNat ≤ Config.maxCode.toNat)
  | .sysSelect _ => true
  | .encStart => true
  | .encByte _ => true
  | .encEnd => true
  | .decStart => true
  | .decIn _ => true
  | .decEnd => true
  | .t10Reserved => true
  | .decCodeClear => true
  | .reseedEnc => true
  | .reseedDec => true
  | .rebuild _ => true
  | .outCode _ => true

end Sys2Proof
end

