-- ==== Sys2Proof/Decode.lean ====
section
/-! DEFINITION. Decoding the words of R58 to operations, and the encoder after it. A word is read by
its format (`MODE1`, `T10`, `CODE16`, `SIZE16`) and, for `T10`, by `MODE`: the rows share bit patterns. -/

namespace Sys2Proof

/-- R57, R58: which operation a `CODE16` word is the operand of. -/
inductive CodeUse where
  /-- The word the decoder's assembler completed, or a code the host delivers whole (R57, log 13). -/
  | decCode
  /-- The operand of the internal `REBUILD`. -/
  | rebuild
  /-- The operand of the internal `OUT.CODE`. -/
  | outCode
  deriving DecidableEq, Repr

/-- R58: a word in its format, with what selects the operation beside it. -/
inductive Presented where
  /-- Format `MODE1`: the word of `SYS.SELECT`. -/
  | mode1 (w : BitVec 1)
  /-- Format `T10` on the machine `m` selects: `kind` in bits 9:8, `data` in bits 7:0. -/
  | t10 (m : Mode) (w : BitVec 10)
  /-- Format `CODE16`. -/
  | code16 (u : CodeUse) (w : BitVec 16)
  /-- Format `SIZE16`: the entry count of the machine `m` selects, read at the top of a step. -/
  | size16 (m : Mode) (w : BitVec 16)
  deriving DecidableEq, Repr

/-- Why a word is no operation. -/
inductive DecodeReject where
  /-- A `SIZE16` word other than `0xFFFF`: no `RESEED` is due (R58, R77). -/
  | countBelowCapacity
  /-- A table word with a bit above its format's width (log 14). -/
  | wordTooWide
  deriving DecidableEq, Repr

/-- R27, R58: `MODE1`, 0 is `COMPRESS` and 1 is `DECOMPRESS`. -/
def decodeMode1 (w : BitVec 1) : Instr :=
  if w = 0#1 then .sysSelect .compress else .sysSelect .decompress

/-- R58: `kind`, bits 9:8 of a `T10` word. -/
def t10Kind (w : BitVec 10) : BitVec 2 := w.extractLsb' 8 2

/-- R58: `data`, bits 7:0 of a `T10` word. -/
def t10Data (w : BitVec 10) : Byte := w.extractLsb' 0 8

/-- R58: the `T10` word of a kind and a data byte. -/
def t10Word (kind : BitVec 2) (data : Byte) : BitVec 10 := kind ++ data

/-- R58: a `T10` word on the machine that `m` selects. `START` and `END` ignore their data (log 24). -/
def decodeT10 (m : Mode) (w : BitVec 10) : Instr :=
  if t10Kind w = 0b00#2 then
    match m with
    | .compress => .encStart
    | .decompress => .decStart
  else if t10Kind w = 0b01#2 then
    match m with
    | .compress => .encByte (t10Data w)
    | .decompress => .decIn (t10Data w)
  else if t10Kind w = 0b10#2 then
    match m with
    | .compress => .encEnd
    | .decompress => .decEnd
  else .t10Reserved

/-- R55, R92: `DEC.CODE` by the static class of its word; the rows `DEC.CODE.BASE` (mask `0xFF00`)
and `DEC.CODE.CLEAR` (mask `0xFFFF`) take priority. -/
def decodeDecCode (w : BitVec 16) : Instr :=
  if w.extractLsb' 8 8 = 0#8 then .decCodeBase w
  else if w = 0xFFFF#16 then .decCodeClear
  else .decCodeLearned w

/-- R58: a `CODE16` word by its use. -/
def decodeCode16 (u : CodeUse) (w : BitVec 16) : Instr :=
  match u with
  | .decCode => decodeDecCode w
  | .rebuild => .rebuild w
  | .outCode => .outCode w

/-- R58, R77: a `SIZE16` word selects `RESEED` exactly when it is `0xFFFF`. -/
def decodeSize16 (m : Mode) (w : BitVec 16) : Except DecodeReject Instr :=
  if w = 0xFFFF#16 then
    match m with
    | .compress => .ok .reseedEnc
    | .decompress => .ok .reseedDec
  else .error .countBelowCapacity

/-- R58: the operation a word stands for. Total; the only rejection is a count below `CAPACITY`. -/
def decode : Presented → Except DecodeReject Instr
  | .mode1 w => .ok (decodeMode1 w)
  | .t10 m w => .ok (decodeT10 m w)
  | .code16 u w => .ok (decodeCode16 u w)
  | .size16 m w => decodeSize16 m w

/-- A word numbered as spec/opcode_table.json numbers it, in its format. The table gives a row no
format tag, and rows share words, so this takes the reading of log 14: one byte is `MODE1`; two bytes
are `T10` with `MODE = COMPRESS` when they fit in 10 bits, and a code for `DEC.CODE` otherwise. -/
def tableWord (nbits w : Nat) : Except DecodeReject Presented :=
  if nbits ≤ 8 then
    if w < 2 then .ok (.mode1 (BitVec.ofNat 1 w)) else .error .wordTooWide
  else if w < 1024 then .ok (.t10 .compress (BitVec.ofNat 10 w))
  else if w < 65536 then .ok (.code16 .decCode (BitVec.ofNat 16 w))
  else .error .wordTooWide

/-- The instruction the decoder reads from a word of the opcode table (log 14). -/
def decodeTableWord (nbits w : Nat) : Option Instr :=
  match tableWord nbits w with
  | .error _ => none
  | .ok p =>
    match decode p with
    | .error _ => none
    | .ok i => some i

/-- R58: the word of an operation, from the same table. `START` and `END` are written with data 0 (log 24). -/
def encode : Instr → Presented
  | .sysSelect .compress => .mode1 0#1
  | .sysSelect .decompress => .mode1 1#1
  | .encStart => .t10 .compress (t10Word 0b00#2 0#8)
  | .encByte c => .t10 .compress (t10Word 0b01#2 c)
  | .encEnd => .t10 .compress (t10Word 0b10#2 0#8)
  | .decStart => .t10 .decompress (t10Word 0b00#2 0#8)
  | .decIn b => .t10 .decompress (t10Word 0b01#2 b)
  | .decEnd => .t10 .decompress (t10Word 0b10#2 0#8)
  | .t10Reserved => .t10 .compress (t10Word 0b11#2 0#8)
  | .decCodeBase k => .code16 .decCode k
  | .decCodeLearned k => .code16 .decCode k
  | .decCodeClear => .code16 .decCode 0xFFFF#16
  | .reseedEnc => .size16 .compress 0xFFFF#16
  | .reseedDec => .size16 .decompress 0xFFFF#16
  | .rebuild n => .code16 .rebuild n
  | .outCode v => .code16 .outCode v

end Sys2Proof
end

