-- ==== Sys2Proof/Machine/Fetch.lean ====
section
/-! DEFINITION. Taking the next event of the input side (R38, R42, R57, R58; logs 8, 13, 16). The core
fetches no instructions (R65): the next event plays that part. -/

namespace Sys2Proof.Machine

/-- What the input side gives a step. -/
inductive Fetched where
  /-- An operation, and the state with its event consumed. -/
  | instr (i : Instr) (s : State)
  /-- A read failure, and the state with its event consumed. -/
  | failed (e : HostError) (s : State)
  /-- No step: the event is not consumed (R112). -/
  | nothing (r : Refusal)
  deriving DecidableEq, Repr

/-- The next event. A `T10` word goes to the machine `MODE` selects (R58, R110). A whole code stands
for its two wire bytes (R63), so it is counted as two in `dec.in_pos` and cannot be delivered inside a
code (R41, log 13). -/
def fetch (s : State) : Fetched :=
  match s.input with
  | [] => .nothing .noEvent
  | .select w :: rest => .instr (decodeMode1 w) (s.withInput rest)
  | .transaction w :: rest => .instr (decodeT10 s.mode w) (s.withInput rest)
  | .code w :: rest =>
    if s.dec.holdValid then .nothing .misalignedCode
    else .instr (decodeDecCode w) ((s.withInput rest).withDec { s.dec with inPos := s.dec.inPos + 2 })
  | .readFailure e :: rest => .failed e (s.withInput rest)

/-- The event that presents a word of the opcode table, and the mode it needs to reach its machine
(log 14); none for a word that no external event carries. -/
def eventOf (p : Presented) : Option (HostEvent × Option Mode) :=
  match p with
  | .mode1 w => some (.select w, none)
  | .t10 m w => some (.transaction w, some m)
  | .code16 .decCode w => some (.code w, some .decompress)
  | .code16 .rebuild _ => none
  | .code16 .outCode _ => none
  | .size16 _ _ => none

/-- `s` with that event next on the input side, and the channel connected to its machine (R110). -/
def presentNext (p : Presented) (s : State) : State :=
  match eventOf p with
  | none => s
  | some (ev, none) => s.withInput (ev :: s.input)
  | some (ev, some m) => (s.withInput (ev :: s.input)).withMode m

end Sys2Proof.Machine
end

