-- ==== Sys2Proof/Machine/Step.lean ====
section
/-! DEFINITION. One step: one event of the input side, one operation (R42). -/

namespace Sys2Proof.Machine

/-- R42: one atomic step. -/
def step (s : State) : Host.Outcome State Fault Refusal :=
  match fetch s with
  | .instr i t => exec i t
  | .failed e t => readFailed e t
  | .nothing r => .refused r

/-- `s` with a word of the opcode table as the next event (logs 8, 14). -/
def State.withFetchWord (s : State) (nbits w : Nat) : State :=
  match tableWord nbits w with
  | .error _ => s
  | .ok p => presentNext p s

end Sys2Proof.Machine
end

