-- ==== Sys2Proof/Machine/Macros.lean ====
section
/-! DEFINITION. The two macro operations of R63 as sequences of operations, and running a sequence. -/

namespace Sys2Proof.Machine

/-- R63: `encode(x)` is `ENC.START`, one `ENC.BYTE` per byte, `ENC.END`. -/
def encodeMacro (x : List Byte) : List Instr := .encStart :: (x.map .encByte ++ [.encEnd])

/-- R63: `decode(y)` is `DEC.START`, one `DEC.IN` per wire byte, `DEC.END`. -/
def decodeMacro (y : List Byte) : List Instr := .decStart :: (y.map .decIn ++ [.decEnd])

/-- R42: the operations one after another, to the first that does not answer a next state. -/
def execAll : List Instr → State → Result
  | [], s => .next s
  | i :: is, s =>
    match exec i s with
    | .next t => execAll is t
    | .fault f => .fault f
    | .refused r => .refused r

/-- R114: the operations of a run whose machine may fault: a run that has ended takes no more of them
(R118), and the state it ended in is the answer. -/
def execUntilEnd (a : Agent) : List Instr → State → Result
  | [], s => .next s
  | i :: is, s =>
    match exec i s with
    | .next t => if t.phaseOf a = .fault then .next t else execUntilEnd a is t
    | .fault f => .fault f
    | .refused r => .refused r

end Sys2Proof.Machine
end

