-- ==== Sys2Proof/Safety.lean ====
section
/-! DEFINITION. What counts as a safe run: the invariants of R29, the end of a run (R118), the string of
a code (R68, R100), and the terms the statements use. -/

namespace Sys2Proof.Machine

/-- R118: a run of `a` has ended. -/
def State.ended (s : State) (a : Agent) : Prop := s.phaseOf a = .done ∨ s.phaseOf a = .fault

/-- R118: a run of `a` has ended well. -/
def State.endedWell (s : State) (a : Agent) : Prop := s.phaseOf a = .done

/-- R139, for reference, outside the core: the exit code the host maps the end of a run to. -/
def State.exitCode (s : State) (a : Agent) : Option Nat :=
  match s.phaseOf a with
  | .done => some 0
  | .fault => some 1
  | .idle => none
  | .run => none

/-- R39: the collaborator accepts the next `n` bytes. -/
abbrev SinkAccepts (n : Nat) (s : State) : Prop := ∀ r ∈ s.sink.take n, r = SinkReply.accept

/-- R39, R123: the collaborator accepts the next `n` bytes and refuses the one after them with `e`. -/
abbrev SinkFailsAfter (n : Nat) (e : HostError) (s : State) : Prop :=
  SinkAccepts n s ∧ s.sink[n]? = some (SinkReply.fail e)

/-- R39: `s` after the bytes `bs` were accepted: they are at the end of the output and the
collaborator's answers to them are used up. -/
def State.wrote (s : State) (bs : List Byte) : State :=
  { s with output := s.output ++ bs, sink := s.sink.drop bs.length }

/-- R68, R100: the string of a code, by the prefix chain: `CLEAR` spells the empty string, and a code
with record `(p, b)` spells the string of `p` and then `b`. -/
inductive Spells (dict : List DecRecord) : Code → List Byte → Prop where
  | clear : Spells dict Config.clear []
  | record {x : Code} {r : DecRecord} {t : List Byte} (hx : x ≠ Config.clear)
      (hr : dict[x.toNat]? = some r) (ht : Spells dict r.pre t) : Spells dict x (t ++ [r.byte])

/-- R100, R101: the prefix chain of `n` reaches `x` in the given number of records read. -/
inductive ChainReaches (dict : List DecRecord) : Code → Nat → Code → Prop where
  | start {n : Code} : ChainReaches dict n 0 n
  | follow {n x : Code} {r : DecRecord} {steps : Nat} (hn : n ≠ Config.clear)
      (hr : dict[n.toNat]? = some r) (h : ChainReaches dict r.pre steps x) :
      ChainReaches dict n (steps + 1) x

/-- R29 items 1 to 4 and 7: the encoder store of a run that has been started. -/
structure EncStoreOk (dict : List EncEntry) : Prop where
  /-- Item 2: the base alphabet is present and unchanged. -/
  base : dict.take 256 = encBase
  /-- Item 1. -/
  bound : dict.length ≤ 65535
  /-- Item 3: the values are `0 .. size - 1`, each once, in insertion order. -/
  codes : ∀ (n : Nat) (e : EncEntry), dict[n]? = some e → e.code.toNat = n
  /-- R15: keys are unique. -/
  keys : dict.Pairwise fun a b => ¬(a.pre = b.pre ∧ a.byte = b.byte)
  /-- Items 4 and 7: a learned entry's prefix is the code of an earlier entry. -/
  learned : ∀ (n : Nat) (e : EncEntry), 256 ≤ n → dict[n]? = some e →
    e.pre.toNat < n ∧ e.pre ≠ Config.clear

/-- R29 item 5, R87 item 5: the match code of an encoder that has not faulted. -/
structure EncMatchOk (e : Enc) : Prop where
  start : e.i = Config.clear ↔ e.inPos = 0
  known : e.i ≠ Config.clear → e.i.toNat < e.size
  full : e.size = 65535 → e.i.toNat < 256

/-- R29 items 1, 2, 4 and 8: the decoder store of a run that has been started. -/
structure DecStoreOk (dict : List DecRecord) : Prop where
  /-- Item 2. -/
  base : dict.take 256 = decBase
  /-- Item 1. -/
  bound : dict.length ≤ 65535
  /-- Item 4. -/
  noClear : ∀ (n : Nat) (r : DecRecord), 256 ≤ n → dict[n]? = some r → r.pre ≠ Config.clear
  /-- Item 8. -/
  below : ∀ (n : Nat) (r : DecRecord), 257 ≤ n → dict[n]? = some r → r.pre.toNat < n

/-- R29 item 6, R25: the previous code and the counters of a decoder that has not faulted. -/
structure DecPrevOk (d : Dec) : Prop where
  start : d.i = Config.clear ↔ d.codeIdx = 0
  known : d.i ≠ Config.clear → d.i.toNat < d.size
  count : d.inPos = 2 * d.codeIdx + (if d.holdValid then 1 else 0)

/-- The invariant of the whole core: R24 (`phase = FAULT` exactly when a kind is recorded), R110 and
R134 (a machine in `RUN` is the one `MODE` selects), and R29. -/
structure Inv (s : State) : Prop where
  encFault : s.enc.phase = .fault ↔ s.enc.fault ≠ .none
  decFault : s.dec.phase = .fault ↔ s.dec.fault ≠ .none
  encSelected : s.enc.phase = .run → s.mode = .compress
  decSelected : s.dec.phase = .run → s.mode = .decompress
  encStore : s.enc.phase ≠ .idle → EncStoreOk s.enc.dict
  decStore : s.dec.phase ≠ .idle → DecStoreOk s.dec.dict
  encMatch : s.enc.phase = .run ∨ s.enc.phase = .done → EncMatchOk s.enc
  decPrev : s.dec.phase = .run ∨ s.dec.phase = .done → DecPrevOk s.dec

/-- R89, R105: the entry counts against the codes emitted and consumed; an epoch is 65279 codes. -/
structure EpochInv (s : State) : Prop where
  /-- R89: `enc.size = 256 + n` after the `n`-th code of the first epoch, and so on. -/
  enc : s.enc.phase = .run → ∃ j, s.enc.outCodes + 256 = 65279 * j + s.enc.size
  /-- R105: `dec.size = 255 + n` after the `n`-th code (`n ≥ 1`) of the first epoch, and so on. -/
  dec : s.dec.phase = .run →
    (s.dec.codeIdx = 0 ∧ s.dec.size = 256) ∨
      (1 ≤ s.dec.codeIdx ∧ ∃ j, s.dec.codeIdx + 255 = 65279 * j + s.dec.size)

/-- A result with its next state changed by `f`. -/
def mapNext (f : State → State) : Result → Result
  | .next s => .next (f s)
  | .fault r => .fault r
  | .refused r => .refused r

/-- R112: the operation has no step. -/
def IsRefused (r : Result) : Prop := ∃ x, r = Host.Outcome.refused x

/-- R55, R57: the two `DEC.CODE` rows that carry their code. -/
def IsDecCode (i : Instr) (k : Code) : Prop := i = .decCodeBase k ∨ i = .decCodeLearned k

/-- R13, R57: the operations of the encoder. -/
def isEncoderOp : Instr → Bool
  | .encStart => true
  | .encByte _ => true
  | .encEnd => true
  | .reseedEnc => true
  | .outCode _ => true
  | .sysSelect _ => false
  | .decStart => false
  | .decIn _ => false
  | .decEnd => false
  | .t10Reserved => false
  | .decCodeBase _ => false
  | .decCodeLearned _ => false
  | .decCodeClear => false
  | .reseedDec => false
  | .rebuild _ => false

/-- R13, R57: the operations of the decoder. -/
def isDecoderOp : Instr → Bool
  | .decStart => true
  | .decIn _ => true
  | .decEnd => true
  | .decCodeBase _ => true
  | .decCodeLearned _ => true
  | .decCodeClear => true
  | .reseedDec => true
  | .rebuild _ => true
  | .encStart => false
  | .encByte _ => false
  | .encEnd => false
  | .reseedEnc => false
  | .outCode _ => false
  | .sysSelect _ => false
  | .t10Reserved => false

end Sys2Proof.Machine
end

