-- ==== Sys2Proof/Certificates/Slice0/Obligations.lean ====
section
/-! DEFINITION. The statements about the model, for the provers. -/

open Sys2Proof Sys2Proof.Machine

/-! ### A step -/

/-- R42, R58, R65: when the next event's word decodes to an operation, the step is that operation on the
state with the event consumed. A whole code is counted as its two wire bytes (log 13, the model's). -/
def Obligations.StepRunsTheDecodedOperation : Prop :=
  ∀ (s : State) (rest : List HostEvent) (i : Instr),
    (∀ w, s.input = .select w :: rest → decode (.mode1 w) = .ok i →
      step s = exec i { s with input := rest }) ∧
    (∀ w, s.input = .transaction w :: rest → decode (.t10 s.mode w) = .ok i →
      step s = exec i { s with input := rest }) ∧
    (∀ w, s.input = .code w :: rest → s.dec.holdValid = false → decode (.code16 .decCode w) = .ok i →
      step s = exec i { s with input := rest, dec := { s.dec with inPos := s.dec.inPos + 2 } })

/-- R38, R123, R129: a read failure raises `Transport` in the selected machine, with nothing of the
operation done. That it is an event of its own, and that it has no step while the selected machine is not
in `RUN`, is the model's (log 11). -/
def Obligations.ReadFailureRaisesTransport : Prop :=
  ∀ (s : State) (rest : List HostEvent) (e : HostError), s.input = .readFailure e :: rest →
    (s.mode = .compress → s.enc.phase = .run →
      step s = .next { s with
        input := rest, enc := { s.enc with fault := .transport e .input, phase := .fault } }) ∧
    (s.mode = .decompress → s.dec.phase = .run →
      step s = .next { s with
        input := rest, dec := { s.dec with fault := .transport e .input, phase := .fault } }) ∧
    (s.mode = .compress → s.enc.phase ≠ .run → IsRefused (step s)) ∧
    (s.mode = .decompress → s.dec.phase ≠ .run → IsRefused (step s))

/-- R41, R135, R137 and logs 13, 16 (the model's): with no event delivered, and for a whole code
delivered inside a code, there is no step. -/
def Obligations.WaitingCoreHasNoStep : Prop :=
  ∀ (s : State),
    (s.input = [] → step s = .refused .noEvent) ∧
    (∀ (w : BitVec 16) (rest : List HostEvent), s.input = .code w :: rest → s.dec.holdValid = true →
      step s = .refused .misalignedCode)

/-! ### Words -/

/-- R55, R58: words written out from the spec's encodings decode to the operations they stand for. -/
def Obligations.SampleWordsDecode : Prop :=
  decode (.mode1 0#1) = .ok (.sysSelect .compress) ∧ decode (.mode1 1#1) = .ok (.sysSelect .decompress) ∧
  decode (.t10 .compress 0x000#10) = .ok .encStart ∧ decode (.t10 .compress 0x141#10) = .ok (.encByte 0x41#8) ∧
  decode (.t10 .compress 0x1FF#10) = .ok (.encByte 0xFF#8) ∧ decode (.t10 .compress 0x200#10) = .ok .encEnd ∧
  decode (.t10 .decompress 0x0AA#10) = .ok .decStart ∧ decode (.t10 .decompress 0x102#10) = .ok (.decIn 0x02#8) ∧
  decode (.t10 .decompress 0x2FF#10) = .ok .decEnd ∧ decode (.t10 .compress 0x345#10) = .ok .t10Reserved ∧
  decode (.code16 .decCode 0x00FF#16) = .ok (.decCodeBase 0x00FF#16) ∧
  decode (.code16 .decCode 0x0100#16) = .ok (.decCodeLearned 0x0100#16) ∧
  decode (.code16 .decCode 0xFFFE#16) = .ok (.decCodeLearned 0xFFFE#16) ∧
  decode (.code16 .decCode 0xFFFF#16) = .ok .decCodeClear ∧
  decode (.size16 .compress 0xFFFF#16) = .ok .reseedEnc ∧ decode (.size16 .decompress 0xFFFF#16) = .ok .reseedDec ∧
  decode (.size16 .compress 0xFFFE#16) = .error .countBelowCapacity ∧
  decode (.code16 .rebuild 0x0109#16) = .ok (.rebuild 0x0109#16) ∧
  decode (.code16 .outCode 0x0102#16) = .ok (.outCode 0x0102#16)

/-- R55, R58: decoding the encoded word of a well-formed operation gives the operation back. -/
def Obligations.DecodeInvertsEncode : Prop :=
  ∀ i : Instr, WellFormed i = true → decode (encode i) = .ok i

/-- R55, R57: whatever a word decodes to is well formed: each code is in the class its row says. -/
def Obligations.DecodedOperationsAreWellFormed : Prop :=
  ∀ (p : Presented) (i : Instr), decode p = .ok i → WellFormed i = true

/-- R53: a code is assembled from two wire bytes in either byte order, and the serialiser is the inverse. -/
def Obligations.CodeAssemblyInvertsSerialisation : Prop :=
  ∀ (o : ByteOrder) (b0 b1 : Byte) (v : Code),
    (assembleCode .le b0 b1).toNat = b0.toNat + 256 * b1.toNat ∧
    (assembleCode .be b0 b1).toNat = 256 * b0.toNat + b1.toNat ∧
    assembleCode o (wireFirst o v) (wireSecond o v) = v ∧
    wireFirst o (assembleCode o b0 b1) = b0 ∧ wireSecond o (assembleCode o b0 b1) = b1

/-- R55, R56: the static classes by value and the dynamic classes by comparison with the entry count; a
base code is always KNOWN and `CLEAR` always INVALID in the range the capacity check leaves. -/
def Obligations.CodeClassesPartitionTheCodeSpace : Prop :=
  ∀ (k : Code) (size : Nat),
    (staticClass k = .base ↔ k.toNat ≤ 0x00FF) ∧
    (staticClass k = .learned ↔ 0x0100 ≤ k.toNat ∧ k.toNat ≤ 0xFFFE) ∧
    (staticClass k = .clear ↔ k.toNat = 0xFFFF) ∧
    (dynamicClass k size = .known ↔ k.toNat < size) ∧
    (dynamicClass k size = .self ↔ k.toNat = size) ∧
    (dynamicClass k size = .invalid ↔ size < k.toNat) ∧
    (256 ≤ size → size ≤ 65534 →
      (staticClass k = .base → dynamicClass k size = .known) ∧
      (staticClass k = .clear → dynamicClass k size = .invalid))

/-! ### Reset and run control -/

/-- R10, R140: after power-on both machines are `IDLE`, and this hardware's byte order is `LE`. -/
def Obligations.PowerOnLeavesBothMachinesIdle : Prop :=
  State.reset.enc.phase = .idle ∧ State.reset.dec.phase = .idle ∧ State.reset.byteOrder = .le

/-- R110: `SYS.SELECT`. -/
def Obligations.SelectSetsTheModeBetweenRuns : Prop :=
  ∀ (m : Mode) (s : State),
    (s.enc.phase ≠ .run → s.dec.phase ≠ .run → exec (.sysSelect m) s = .next { s with mode := m }) ∧
    (s.enc.phase = .run ∨ s.dec.phase = .run → IsRefused (exec (.sysSelect m) s)) ∧
    decode (.mode1 0#1) = .ok (.sysSelect .compress) ∧ decode (.mode1 1#1) = .ok (.sysSelect .decompress)

/-- R112: an operation that is not enabled has no step. -/
def Obligations.DisabledOperationsAreRefused : Prop :=
  ∀ (s : State) (c : Byte) (i : Instr) (k : Code), i = .decCodeClear ∨ IsDecCode i k →
    (s.mode ≠ .compress → IsRefused (exec .encStart s) ∧ IsRefused (exec (.encByte c) s) ∧
      IsRefused (exec .encEnd s)) ∧
    (s.enc.phase ≠ .run → IsRefused (exec (.encByte c) s) ∧ IsRefused (exec .encEnd s)) ∧
    (s.enc.phase = .run → IsRefused (exec .encStart s)) ∧
    (s.mode ≠ .decompress → IsRefused (exec .decStart s) ∧ IsRefused (exec (.decIn c) s) ∧
      IsRefused (exec i s) ∧ IsRefused (exec .decEnd s)) ∧
    (s.dec.phase ≠ .run → IsRefused (exec (.decIn c) s) ∧ IsRefused (exec i s) ∧
      IsRefused (exec .decEnd s)) ∧
    (s.dec.phase = .run → IsRefused (exec .decStart s)) ∧
    (s.enc.phase = .run ∨ s.dec.phase = .run → ∀ m, IsRefused (exec (.sysSelect m) s)) ∧
    IsRefused (exec .t10Reserved s)

/-- R58, R112: the reserved `T10` kind is refused on every state, whatever its data. -/
def Obligations.ReservedKindIsRefused : Prop :=
  ∀ (s : State) (data : Byte) (rest : List HostEvent),
    exec .t10Reserved s = .refused .reservedKind ∧
    (s.input = .transaction (t10Word 0b11#2 data) :: rest → step s = .refused .reservedKind)

/-- R112, R132: in `FAULT` no operation of the selected machine but `START` has a step: a `T10` word of
another kind and a whole code are refused (`SYS.SELECT` is no operation of a machine and has its step,
R110). That a read failure is an event of its own, refused there, is the model's (log 11). -/
def Obligations.OnlyStartLeavesFault : Prop :=
  ∀ (s : State) (rest : List HostEvent),
    (s.mode = .compress → s.enc.phase = .fault →
      (∀ w, s.input = .transaction w :: rest →
        (decode (.t10 s.mode w) = .ok .encStart →
          ∃ t, step s = .next t ∧ t.enc.phase = .run ∧ t.enc.fault = .none) ∧
        (decode (.t10 s.mode w) ≠ .ok .encStart → IsRefused (step s))) ∧
      (∀ w, s.input = .code w :: rest → IsRefused (step s)) ∧
      (∀ e, s.input = .readFailure e :: rest → IsRefused (step s))) ∧
    (s.mode = .decompress → s.dec.phase = .fault →
      (∀ w, s.input = .transaction w :: rest →
        (decode (.t10 s.mode w) = .ok .decStart →
          ∃ t, step s = .next t ∧ t.dec.phase = .run ∧ t.dec.fault = .none) ∧
        (decode (.t10 s.mode w) ≠ .ok .decStart → IsRefused (step s))) ∧
      (∀ w, s.input = .code w :: rest → IsRefused (step s)) ∧
      (∀ e, s.input = .readFailure e :: rest → IsRefused (step s)))

/-- R111: the phases move only as the table says: to `RUN` by `START` alone and not from `RUN`, to `DONE`
by `END` alone and from `RUN`, to `FAULT` from `RUN`. -/
def Obligations.PhasesMoveOnlyAsTheTableSays : Prop :=
  ∀ (s t : State), step s = .next t →
    (t.enc.phase = s.enc.phase ∨
      (s.mode = .compress ∧ s.enc.phase ≠ .run ∧ t.enc.phase = .run ∧
        ∃ data rest, s.input = .transaction (t10Word 0b00#2 data) :: rest) ∨
      (s.mode = .compress ∧ s.enc.phase = .run ∧ t.enc.phase = .done ∧
        ∃ data rest, s.input = .transaction (t10Word 0b10#2 data) :: rest) ∨
      (s.mode = .compress ∧ s.enc.phase = .run ∧ t.enc.phase = .fault)) ∧
    (t.dec.phase = s.dec.phase ∨
      (s.mode = .decompress ∧ s.dec.phase ≠ .run ∧ t.dec.phase = .run ∧
        ∃ data rest, s.input = .transaction (t10Word 0b00#2 data) :: rest) ∨
      (s.mode = .decompress ∧ s.dec.phase = .run ∧ t.dec.phase = .done ∧
        ∃ data rest, s.input = .transaction (t10Word 0b10#2 data) :: rest) ∨
      (s.mode = .decompress ∧ s.dec.phase = .run ∧ t.dec.phase = .fault))

/-- R24, R130: a recorded fault is not changed by any step but a `START`, which clears it. -/
def Obligations.FaultIsKeptUntilStart : Prop :=
  ∀ (s t : State), Inv s → step s = .next t →
    (s.enc.fault ≠ .none → t.enc.fault = s.enc.fault ∨ (t.enc.fault = .none ∧ t.enc.phase = .run)) ∧
    (s.dec.fault ≠ .none → t.dec.fault = s.dec.fault ∨ (t.dec.fault = .none ∧ t.dec.phase = .run))

/-- R12, R27, R139: no step changes the byte order, and `MODE` changes only by `SYS.SELECT` between runs. -/
def Obligations.ConfigurationIsFixedDuringARun : Prop :=
  ∀ (s t : State), step s = .next t →
    t.byteOrder = s.byteOrder ∧
    (t.mode ≠ s.mode → s.enc.phase ≠ .run ∧ s.dec.phase ≠ .run ∧
      ∃ w rest, s.input = .select w :: rest)

/-- R39: output bytes are only appended; a step never takes one back. -/
def Obligations.OutputIsNeverTakenBack : Prop :=
  ∀ (s t : State), step s = .next t → ∃ bs : List Byte, t.output = s.output ++ bs

/-- R13, R115: an operation of one machine neither reads nor writes the other's state: on any other
state of that machine it does the same and leaves that state as it is. That the internal rows are
operations of their own is the model's (log 12). -/
def Obligations.MachinesShareNoState : Prop :=
  ∀ (i : Instr) (s : State),
    (isEncoderOp i = true → ∀ d : Dec,
      exec i { s with dec := d } = mapNext (fun t => { t with dec := d }) (exec i s)) ∧
    (isDecoderOp i = true → ∀ e : Enc,
      exec i { s with enc := e } = mapNext (fun t => { t with enc := e }) (exec i s))

/-! ### The encoder -/

/-- R80: `ENC.START`. -/
def Obligations.EncStartOpensAFreshRun : Prop :=
  ∀ (s : State) (data : Byte),
    (s.mode = .compress → s.enc.phase ≠ .run →
      exec .encStart s = .next { s with enc :=
        {
          i := 65535#16,
          dict := (List.range 256).map fun b =>
            { pre := 65535#16, byte := BitVec.ofNat 8 b, code := BitVec.ofNat 16 b },
          phase := .run, fault := .none, inPos := 0, outCodes := 0 } }) ∧
    (s.mode ≠ .compress ∨ s.enc.phase = .run → IsRefused (exec .encStart s)) ∧
    decode (.t10 .compress (t10Word 0b00#2 data)) = .ok .encStart

/-- R84: the hit case of `ENC.BYTE`; the first byte of a run is always a hit. -/
def Obligations.EncByteHitExtendsTheMatch : Prop :=
  ∀ (c : Byte) (s : State), s.mode = .compress → s.enc.phase = .run → s.enc.size ≠ 65535 →
    (∀ r, encLookup s.enc.i c s.enc.dict = some r →
      exec (.encByte c) s = .next { s with enc := { s.enc with i := r, inPos := s.enc.inPos + 1 } }) ∧
    (Inv s → s.enc.i = 65535#16 →
      exec (.encByte c) s = .next { s with enc :=
        { s.enc with i := BitVec.ofNat 16 c.toNat, inPos := s.enc.inPos + 1 } })

/-- R83: the miss case of `ENC.BYTE`; in a run the match is then never `CLEAR` and the new code never is. -/
def Obligations.EncByteMissInsertsAndEmits : Prop :=
  ∀ (c : Byte) (s : State), s.mode = .compress → s.enc.phase = .run → s.enc.size ≠ 65535 →
    encLookup s.enc.i c s.enc.dict = none →
    (s.enc.i ≠ 65535#16 → SinkAccepts 2 s →
      exec (.encByte c) s = .next { s with
        enc := { s.enc with
          dict := s.enc.dict ++ [{ pre := s.enc.i, byte := c, code := BitVec.ofNat 16 s.enc.size }],
          i := BitVec.ofNat 16 c.toNat, inPos := s.enc.inPos + 1, outCodes := s.enc.outCodes + 1 },
        output := s.output ++ [wireFirst s.byteOrder s.enc.i, wireSecond s.byteOrder s.enc.i],
        sink := s.sink.drop 2 }) ∧
    (s.enc.i = 65535#16 →
      exec (.encByte c) s = .next { s with
        enc := { s.enc with
          dict := s.enc.dict ++ [{ pre := s.enc.i, byte := c, code := BitVec.ofNat 16 s.enc.size }],
          i := BitVec.ofNat 16 c.toNat, inPos := s.enc.inPos + 1 } }) ∧
    (Inv s → s.enc.i ≠ 65535#16 ∧ s.enc.size ≤ 65534)

/-- R82: the capacity check of `ENC.BYTE`: at capacity the step is the step on the reseeded store; in a
run it is then a miss that emits the base code in `enc.i`; `ENC.END` runs no check. -/
def Obligations.EncByteReseedsAtCapacity : Prop :=
  ∀ (c : Byte) (s : State), s.enc.size = 65535 →
    exec (.encByte c) s = exec (.encByte c) { s with enc := { s.enc with dict := encBase } } ∧
    (Inv s → s.mode = .compress → s.enc.phase = .run → SinkAccepts 2 s →
      s.enc.i.toNat < 256 ∧
      exec (.encByte c) s = .next { s with
        enc := { s.enc with
          dict := encBase ++ [{ pre := s.enc.i, byte := c, code := 256#16 }],
          i := BitVec.ofNat 16 c.toNat, inPos := s.enc.inPos + 1, outCodes := s.enc.outCodes + 1 },
        output := s.output ++ [wireFirst s.byteOrder s.enc.i, wireSecond s.byteOrder s.enc.i],
        sink := s.sink.drop 2 }) ∧
    (∀ t, exec .encEnd s = .next t → t.enc.dict = s.enc.dict)

/-- R123, R129: `Transport` in `OutCode` of a miss: the insertion stands, and the first byte when the
second is the one refused; `enc.i` and the counters are not written. -/
def Obligations.EncByteTransportKeepsTheInsertion : Prop :=
  ∀ (c : Byte) (s : State) (e : HostError), s.mode = .compress → s.enc.phase = .run →
    s.enc.size ≠ 65535 → encLookup s.enc.i c s.enc.dict = none → s.enc.i ≠ 65535#16 →
    (SinkFailsAfter 0 e s →
      exec (.encByte c) s = .next { s with
        enc := { s.enc with
          dict := s.enc.dict ++ [{ pre := s.enc.i, byte := c, code := BitVec.ofNat 16 s.enc.size }],
          fault := .transport e .output, phase := .fault },
        sink := s.sink.drop 1 }) ∧
    (SinkFailsAfter 1 e s →
      exec (.encByte c) s = .next { s with
        enc := { s.enc with
          dict := s.enc.dict ++ [{ pre := s.enc.i, byte := c, code := BitVec.ofNat 16 s.enc.size }],
          fault := .transport e .output, phase := .fault },
        output := s.output ++ [wireFirst s.byteOrder s.enc.i],
        sink := s.sink.drop 2 })

/-- R81, R86: in a run every byte is legal: with the sink accepting, `ENC.BYTE` completes, stays in
`RUN`, counts the byte, and emits nothing or one code below the entry count, never `CLEAR` (R87 item 4). -/
def Obligations.EncByteAcceptsEveryByte : Prop :=
  ∀ (c : Byte) (s : State), Inv s → s.mode = .compress → s.enc.phase = .run → SinkAccepts 2 s →
    ∃ t, exec (.encByte c) s = .next t ∧ t.enc.phase = .run ∧ t.enc.inPos = s.enc.inPos + 1 ∧
      (t.output = s.output ∧ t.enc.outCodes = s.enc.outCodes ∧ t.enc.size = s.enc.size ∨
        ∃ v : Code, v.toNat < s.enc.size ∧ v.toNat ≤ 65533 ∧
          t.output = s.output ++ [wireFirst s.byteOrder v, wireSecond s.byteOrder v] ∧
          t.enc.outCodes = s.enc.outCodes + 1 ∧
          (t.enc.size = s.enc.size + 1 ∨ (s.enc.size = 65535 ∧ t.enc.size = 257)))

/-- R54, R87 item 1: in a run the lookup of `(CLEAR, c)` always finds the base code of `c`, before and
after the capacity check, so a miss never happens with `enc.i = CLEAR`. -/
def Obligations.BaseKeysAreAlwaysPresent : Prop :=
  ∀ (c : Byte) (s : State), Inv s → s.enc.phase = .run →
    encLookup 65535#16 c s.enc.dict = some (BitVec.ofNat 16 c.toNat) ∧
    encLookup 65535#16 c (encCapacityCheck s).enc.dict = some (BitVec.ofNat 16 c.toNat)

/-- R85: `ENC.END`, with the flush of the last match (there is one unless no byte was consumed) and the
`Transport` it can raise. -/
def Obligations.EncEndFlushesTheLastMatch : Prop :=
  ∀ (s : State) (e : HostError) (data : Byte),
    (s.mode = .compress → s.enc.phase = .run →
      (s.enc.i = 65535#16 → exec .encEnd s = .next { s with enc := { s.enc with phase := .done } }) ∧
      (s.enc.i ≠ 65535#16 → SinkAccepts 2 s →
        exec .encEnd s = .next { s with
          enc := { s.enc with phase := .done, outCodes := s.enc.outCodes + 1 },
          output := s.output ++ [wireFirst s.byteOrder s.enc.i, wireSecond s.byteOrder s.enc.i],
          sink := s.sink.drop 2 }) ∧
      (s.enc.i ≠ 65535#16 → SinkFailsAfter 0 e s →
        exec .encEnd s = .next { s with
          enc := { s.enc with phase := .fault, fault := .transport e .output },
          sink := s.sink.drop 1 }) ∧
      (s.enc.i ≠ 65535#16 → SinkFailsAfter 1 e s →
        exec .encEnd s = .next { s with
          enc := { s.enc with phase := .fault, fault := .transport e .output },
          output := s.output ++ [wireFirst s.byteOrder s.enc.i],
          sink := s.sink.drop 2 }) ∧
      (Inv s → (s.enc.i = 65535#16 ↔ s.enc.inPos = 0))) ∧
    (s.mode ≠ .compress ∨ s.enc.phase ≠ .run → IsRefused (exec .encEnd s)) ∧
    decode (.t10 .compress (t10Word 0b10#2 data)) = .ok .encEnd

/-- R88: `OUT.CODE`, the two wire bytes in `BYTE_ORDER`, and the `Transport` either can raise. That it
runs as an operation of its own, in any mode and phase, so that it can send even an `IDLE` encoder to
`FAULT`, is the model's (log 12). -/
def Obligations.OutCodeWritesTwoWireBytes : Prop :=
  ∀ (v : Code) (s : State) (e : HostError) (low high : Byte),
    low.toNat = v.toNat % 256 → high.toNat = v.toNat / 256 →
    (s.byteOrder = .le → SinkAccepts 2 s → exec (.outCode v) s =
      .next { s with output := s.output ++ [low, high], sink := s.sink.drop 2 }) ∧
    (s.byteOrder = .be → SinkAccepts 2 s → exec (.outCode v) s =
      .next { s with output := s.output ++ [high, low], sink := s.sink.drop 2 }) ∧
    (SinkFailsAfter 0 e s → exec (.outCode v) s =
      .next { s with
        enc := { s.enc with phase := .fault, fault := .transport e .output }, sink := s.sink.drop 1 }) ∧
    (SinkFailsAfter 1 e s → exec (.outCode v) s =
      .next { s with
        enc := { s.enc with phase := .fault, fault := .transport e .output },
        output := s.output ++ [if s.byteOrder = .le then low else high], sink := s.sink.drop 2 })

/-! ### The dictionaries -/

/-- R75: `RESEED` in the encoder writes the store and nothing else. That it runs by itself on every
state, outside `RUN` and below capacity, is the model's (log 12). -/
def Obligations.ReseedEncWritesTheStoreOnly : Prop :=
  ∀ s : State, exec .reseedEnc s = .next { s with enc := { s.enc with
    dict := (List.range 256).map fun b =>
      { pre := 65535#16, byte := BitVec.ofNat 8 b, code := BitVec.ofNat 16 b } } }

/-- R76: `RESEED` in the decoder writes the store and nothing else. That it runs by itself on every
state, outside `RUN` and below capacity, is the model's (log 12). -/
def Obligations.ReseedDecWritesTheStoreOnly : Prop :=
  ∀ s : State, exec .reseedDec s = .next { s with dec := { s.dec with
    dict := (List.range 256).map fun b => { pre := 65535#16, byte := BitVec.ofNat 8 b } } }

/-- R32, R36, R44, R78: between two resets a run only adds entries: every key keeps its code and every
index its record. -/
def Obligations.StoresAreAppendOnlyBetweenResets : Prop :=
  ∀ (s t : State), step s = .next t →
    (s.enc.phase = .run → s.enc.size ≠ 65535 →
      (∀ p b v, encLookup p b s.enc.dict = some v → encLookup p b t.enc.dict = some v) ∧
      t.enc.size ≤ s.enc.size + 1) ∧
    (s.dec.phase = .run → s.dec.size ≠ 65535 →
      (∀ (n : Nat) (r : DecRecord), s.dec.dict[n]? = some r → t.dec.dict[n]? = some r) ∧
      t.dec.size ≤ s.dec.size + 1)

/-- Log 20 (the model's form of R15, R33): two encoder stores in canonical form that answer every
lookup alike are equal. -/
def Obligations.CanonicalEncoderStoresAreEqual : Prop :=
  ∀ d₁ d₂ : List EncEntry, Memory.wf d₁ → Memory.wf d₂ →
    (∀ p b, encLookup p b d₁ = encLookup p b d₂) → d₁ = d₂

/-! ### The prefix-chain walk -/

/-- R100: `REBUILD` answers the string of the code, for every chain that ends. That its result stands
in `dec.s` is the model's (log 12). -/
def Obligations.RebuildAnswersTheStringOfTheCode : Prop :=
  ∀ (s : State) (n : Code) (t : List Byte), Spells s.dec.dict n t →
    exec (.rebuild n) s = .next { s with dec := { s.dec with str := t } }

/-- R101, R125: `REBUILD` raises `BadPrefix` with the index where the walk stands: at or beyond
`dec.size` where the chain leaves the store, or after `dec.size` records where it does not end. A code that
spells no string always comes to one of the two. That `REBUILD` runs as an operation of its own is the
model's (log 12). -/
def Obligations.RebuildRaisesBadPrefixOnBrokenChains : Prop :=
  ∀ (s : State) (n : Code),
    (∀ (steps : Nat) (x : Code), ChainReaches s.dec.dict n steps x → x ≠ 65535#16 →
      s.dec.size ≤ x.toNat ∨ steps = s.dec.size →
      exec (.rebuild n) s = .next { s with dec := { s.dec with
        fault := .badPrefix s.dec.k x (2 * s.dec.codeIdx), phase := .fault } }) ∧
    ((∀ t, ¬Spells s.dec.dict n t) →
      ∃ (steps : Nat) (x : Code), ChainReaches s.dec.dict n steps x ∧ x ≠ 65535#16 ∧
        (s.dec.size ≤ x.toNat ∨ steps = s.dec.size) ∧
        exec (.rebuild n) s = .next { s with dec := { s.dec with
          fault := .badPrefix s.dec.k x (2 * s.dec.codeIdx), phase := .fault } })

/-- R101, R104 item 1, R106: in a store whose learned prefixes all point below themselves (every epoch
but one opened with a previous code of 256 or more) every present code has a string, of 1 to
`dec.size` bytes, so no walk raises `BadPrefix`. -/
def Obligations.ClosedStoresSpellEveryCode : Prop :=
  ∀ dict : List DecRecord, DecStoreOk dict →
    (∀ (n : Nat) (r : DecRecord), 256 ≤ n → dict[n]? = some r → r.pre.toNat < n) →
    ∀ n : Code, n.toNat < dict.length →
      ∃ t, Spells dict n t ∧ 1 ≤ t.length ∧ t.length ≤ dict.length

/-! ### The decoder -/

/-- R90: `DEC.START`. `dec.k` and `dec.hold` are left with any value (R141; log 5). -/
def Obligations.DecStartOpensAFreshRun : Prop :=
  ∀ (s : State) (data : Byte),
    (s.mode = .decompress → s.dec.phase ≠ .run →
      ∃ (k : Code) (hold : Byte) (free : Nat), exec .decStart s = .next { s with
        freeIdx := free,
        dec := {
          i := 65535#16, k := k,
          dict := (List.range 256).map fun b => { pre := 65535#16, byte := BitVec.ofNat 8 b },
          hold := hold, holdValid := false, str := [], phase := .run, fault := .none,
          inPos := 0, codeIdx := 0, outPos := 0 } }) ∧
    (s.mode ≠ .decompress ∨ s.dec.phase = .run → IsRefused (exec .decStart s)) ∧
    decode (.t10 .decompress (t10Word 0b00#2 data)) = .ok .decStart

/-- R140: `START` depends on no earlier state but `MODE` and `phase`: two runs started from different
leftovers start alike (`dec.k` and `dec.hold`, which R141 leaves unspecified, apart). -/
def Obligations.StartForgetsEarlierRuns : Prop :=
  ∀ s₁ s₂ : State,
    (s₁.mode = .compress → s₂.mode = .compress → s₁.enc.phase ≠ .run → s₂.enc.phase ≠ .run →
      ∃ t₁ t₂, exec .encStart s₁ = .next t₁ ∧ exec .encStart s₂ = .next t₂ ∧ t₁.enc = t₂.enc) ∧
    (s₁.mode = .decompress → s₂.mode = .decompress → s₁.dec.phase ≠ .run → s₂.dec.phase ≠ .run →
      ∃ t₁ t₂, exec .decStart s₁ = .next t₁ ∧ exec .decStart s₂ = .next t₂ ∧
        { t₁.dec with k := t₂.dec.k, hold := t₂.dec.hold } = t₂.dec)

/-- R91: `DEC.IN`: the first byte of a code is held; the second runs `DEC.CODE` on the code the two
bytes stand for. -/
def Obligations.DecInAssemblesCodes : Prop :=
  ∀ (b : Byte) (s : State),
    (s.mode = .decompress → s.dec.phase = .run →
      (s.dec.holdValid = false → exec (.decIn b) s = .next { s with dec :=
        { s.dec with hold := b, holdValid := true, inPos := s.dec.inPos + 1 } }) ∧
      (∀ (k : Code) (i : Instr), s.dec.holdValid = true →
        (s.byteOrder = .le → k.toNat = s.dec.hold.toNat + 256 * b.toNat) →
        (s.byteOrder = .be → k.toNat = 256 * s.dec.hold.toNat + b.toNat) →
        decode (.code16 .decCode k) = .ok i →
        exec (.decIn b) s = exec i { s with dec :=
          { s.dec with holdValid := false, inPos := s.dec.inPos + 1, k := k } })) ∧
    (s.mode ≠ .decompress ∨ s.dec.phase ≠ .run → IsRefused (exec (.decIn b) s)) ∧
    decode (.t10 .decompress (t10Word 0b01#2 b)) = .ok (.decIn b)

/-- R97: the KNOWN case of `DEC.CODE`: emit the string of `k` and append (previous code, first byte)
unless there is no previous code, which is for the first code of a run only, then a base code; a base code
spells its own byte. `dec.k` is `k`, the code of the step in progress (R18). -/
def Obligations.DecCodeKnownEmitsAndAppends : Prop :=
  ∀ (i : Instr) (k : Code) (s : State), IsDecCode i k → s.mode = .decompress → s.dec.phase = .run →
    s.dec.size ≠ 65535 → k.toNat < s.dec.size →
    (∀ str, Spells s.dec.dict k str → SinkAccepts str.length s →
      (s.dec.i = 65535#16 →
        exec i s = .next { s with
          dec := { s.dec with
            k := k, str := str, i := k, codeIdx := s.dec.codeIdx + 1, outPos := s.dec.outPos + str.length },
          output := s.output ++ str, sink := s.sink.drop str.length }) ∧
      (s.dec.i ≠ 65535#16 → ∀ b rest, str = b :: rest →
        exec i s = .next { s with
          dec := { s.dec with
            k := k, str := str, i := k, codeIdx := s.dec.codeIdx + 1, outPos := s.dec.outPos + str.length,
            dict := s.dec.dict ++ [{ pre := s.dec.i, byte := b }] },
          output := s.output ++ str, sink := s.sink.drop str.length })) ∧
    (Inv s → k.toNat < 256 → Spells s.dec.dict k [BitVec.ofNat 8 k.toNat]) ∧
    (Inv s → EpochInv s → s.dec.i = 65535#16 → s.dec.codeIdx = 0 ∧ k.toNat < 256)

/-- R56, R97, R104 item 1: in a run a base code is always KNOWN and always decodes to its own byte, at
capacity against the reseeded store. -/
def Obligations.BaseCodesAlwaysDecode : Prop :=
  ∀ (k : Code) (s : State), Inv s → s.mode = .decompress → s.dec.phase = .run → k.toNat < 256 →
    SinkAccepts 1 s → ∃ t, exec (.decCodeBase k) s = .next t ∧
      t = { s with
        dec := { s.dec with
          k := k, str := [BitVec.ofNat 8 k.toNat], i := k, codeIdx := s.dec.codeIdx + 1,
          outPos := s.dec.outPos + 1,
          dict := (if s.dec.size = 65535 then decBase else s.dec.dict) ++
            (if s.dec.i = 65535#16 then [] else [{ pre := s.dec.i, byte := BitVec.ofNat 8 k.toNat }]) },
        output := s.output ++ [BitVec.ofNat 8 k.toNat], sink := s.sink.drop 1 }

/-- R95: the SELF case of `DEC.CODE`: append (previous code, first byte of its string), then emit the
previous string with that byte repeated; a previous code outside the store raises `BadPrefix`. -/
def Obligations.DecCodeSelfAppendsThenEmits : Prop :=
  ∀ (i : Instr) (k : Code) (s : State), IsDecCode i k → s.mode = .decompress → s.dec.phase = .run →
    s.dec.size ≠ 65535 → k.toNat = s.dec.size → s.dec.i ≠ 65535#16 →
    (∀ b rest, Spells s.dec.dict s.dec.i (b :: rest) → SinkAccepts (rest.length + 2) s →
      exec i s = .next { s with
        dec := { s.dec with
          k := k, str := b :: rest ++ [b], i := k, codeIdx := s.dec.codeIdx + 1,
          outPos := s.dec.outPos + (rest.length + 2),
          dict := s.dec.dict ++ [{ pre := s.dec.i, byte := b }] },
        output := s.output ++ (b :: rest ++ [b]), sink := s.sink.drop (rest.length + 2) }) ∧
    (s.dec.size ≤ s.dec.i.toNat →
      exec i s = .next { s with dec := { s.dec with
        k := k, fault := .badPrefix k s.dec.i (2 * s.dec.codeIdx), phase := .fault } })

/-- R96, R124: the SELF case with no previous code raises `EmptyPrefix`; in a run it is the first code
of the stream, and it is 256. -/
def Obligations.DecCodeSelfWithoutPreviousRaises : Prop :=
  ∀ (i : Instr) (k : Code) (s : State), IsDecCode i k → s.mode = .decompress → s.dec.phase = .run →
    s.dec.size ≠ 65535 → k.toNat = s.dec.size → s.dec.i = 65535#16 →
    exec i s = .next { s with dec := { s.dec with
      k := k, fault := .emptyPrefix k (2 * s.dec.codeIdx), phase := .fault } } ∧
    (Inv s → EpochInv s → s.dec.codeIdx = 0 ∧ k = 256#16)

/-- R94, R121: a code above the entry count raises `InvalidCode` with the code, the count and the
offset; `CLEAR` always does. -/
def Obligations.DecCodeAboveSizeRaisesInvalidCode : Prop :=
  ∀ (s : State), s.mode = .decompress → s.dec.phase = .run →
    (∀ (i : Instr) (k : Code), IsDecCode i k → s.dec.size ≠ 65535 → s.dec.size < k.toNat →
      exec i s = .next { s with dec := { s.dec with
        k := k, fault := .invalidCode k s.dec.size (2 * s.dec.codeIdx), phase := .fault } }) ∧
    (s.dec.size < 65535 →
      exec .decCodeClear s = .next { s with dec := { s.dec with
        k := 65535#16, fault := .invalidCode 65535#16 s.dec.size (2 * s.dec.codeIdx), phase := .fault } }) ∧
    (s.dec.size = 65535 →
      exec .decCodeClear s = .next { s with dec := { s.dec with
        k := 65535#16, dict := decBase,
        fault := .invalidCode 65535#16 256 (2 * s.dec.codeIdx), phase := .fault } })

/-- R101, R106, R125: the two walks a `DEC.CODE` starts with raise `BadPrefix` with the code of the step
and the index where the walk stands: where the chain leaves the store, or after `dec.size` records where
it repeats; nothing is appended and nothing emitted. -/
def Obligations.DecCodeBrokenChainRaisesBadPrefix : Prop :=
  ∀ (i : Instr) (k : Code) (s : State) (steps : Nat) (x : Code), IsDecCode i k → s.mode = .decompress →
    s.dec.phase = .run → s.dec.size ≠ 65535 → x ≠ 65535#16 →
    s.dec.size ≤ x.toNat ∨ steps = s.dec.size →
    (k.toNat < s.dec.size ∧ ChainReaches s.dec.dict k steps x ∨
      k.toNat = s.dec.size ∧ s.dec.i ≠ 65535#16 ∧ ChainReaches s.dec.dict s.dec.i steps x) →
    exec i s = .next { s with dec := { s.dec with
      k := k, fault := .badPrefix k x (2 * s.dec.codeIdx), phase := .fault } }

/-- R93, R154: at capacity `DEC.CODE` is `DEC.CODE` on the reseeded store, `dec.i` kept: it is validated
against the fresh count. After the check the count is at most 65534. -/
def Obligations.DecCodeReseedsAtCapacity : Prop :=
  ∀ (i : Instr) (k : Code) (s : State), i = .decCodeClear ∨ IsDecCode i k →
    (s.dec.size = 65535 → exec i s = exec i { s with dec := { s.dec with dict := decBase } }) ∧
    (s.dec.size ≤ 65535 → (decCapacityCheck s).dec.size ≤ 65534)

/-- R98, R129: `Transport` in emission: the append (there is none with no previous code) and the bytes
before the refused one stand; the rest of the string, `dec.i` and `dec.code_idx` are not written. -/
def Obligations.DecEmissionTransportKeepsTheAppend : Prop :=
  ∀ (i : Instr) (k : Code) (s : State) (e : HostError) (n : Nat) (b : Byte) (rest : List Byte),
    IsDecCode i k → s.mode = .decompress → s.dec.phase = .run → s.dec.size ≠ 65535 →
    SinkFailsAfter n e s →
    (s.dec.i = 65535#16 → k.toNat < s.dec.size → Spells s.dec.dict k (b :: rest) → n ≤ rest.length →
      exec i s = .next { s with
        dec := { s.dec with
          k := k, str := b :: rest, outPos := s.dec.outPos + n,
          fault := .transport e .output, phase := .fault },
        output := s.output ++ (b :: rest).take n, sink := s.sink.drop (n + 1) }) ∧
    (s.dec.i ≠ 65535#16 → k.toNat < s.dec.size → Spells s.dec.dict k (b :: rest) → n ≤ rest.length →
      exec i s = .next { s with
        dec := { s.dec with
          k := k, str := b :: rest, outPos := s.dec.outPos + n,
          dict := s.dec.dict ++ [{ pre := s.dec.i, byte := b }],
          fault := .transport e .output, phase := .fault },
        output := s.output ++ (b :: rest).take n, sink := s.sink.drop (n + 1) }) ∧
    (s.dec.i ≠ 65535#16 → k.toNat = s.dec.size → Spells s.dec.dict s.dec.i (b :: rest) →
      n ≤ rest.length + 1 →
      exec i s = .next { s with
        dec := { s.dec with
          k := k, str := b :: rest ++ [b], outPos := s.dec.outPos + n,
          dict := s.dec.dict ++ [{ pre := s.dec.i, byte := b }],
          fault := .transport e .output, phase := .fault },
        output := s.output ++ (b :: rest ++ [b]).take n, sink := s.sink.drop (n + 1) })

/-- R102: `DEC.END`. -/
def Obligations.DecEndChecksForAPartialCode : Prop :=
  ∀ (s : State) (data : Byte),
    (s.mode = .decompress → s.dec.phase = .run →
      (s.dec.holdValid = false → exec .decEnd s = .next { s with dec := { s.dec with phase := .done } }) ∧
      (s.dec.holdValid = true → exec .decEnd s = .next { s with dec :=
        { s.dec with fault := .corruptStream (s.dec.inPos - 1), phase := .fault } })) ∧
    (s.mode ≠ .decompress ∨ s.dec.phase ≠ .run → IsRefused (exec .decEnd s)) ∧
    decode (.t10 .decompress (t10Word 0b10#2 data)) = .ok .decEnd

/-- R104 item 5, R129: a `DEC.CODE` that raises leaves `dec.i` and the code count; unless it is
`Transport` it emits nothing and appends nothing, and only a due `RESEED` changes the store. -/
def Obligations.FaultingDecCodeLeavesThePreviousCode : Prop :=
  ∀ (i : Instr) (k : Code) (s t : State), i = .decCodeClear ∨ IsDecCode i k →
    exec i s = .next t → t.dec.phase = .fault →
    t.dec.i = s.dec.i ∧ t.dec.codeIdx = s.dec.codeIdx ∧
    ((∀ e, t.dec.fault ≠ .transport e .output) →
      t.output = s.output ∧ t.sink = s.sink ∧ t.dec.outPos = s.dec.outPos ∧
      t.dec.dict = (if s.dec.size = 65535 then decBase else s.dec.dict))

/-- R22, R98, R99, R104 items 2 and 3: a `DEC.CODE` that completes emits its whole string, of 1 to
`dec.size` bytes, sets `dec.i` below the count, and appends exactly one record unless there was no
previous code. -/
def Obligations.CompletedDecCodeEmitsANonemptyString : Prop :=
  ∀ (i : Instr) (k : Code) (s t : State), IsDecCode i k → s.dec.size ≤ 65535 →
    exec i s = .next t → t.dec.phase = .run →
    t.output = s.output ++ t.dec.str ∧ 1 ≤ t.dec.str.length ∧ t.dec.str.length ≤ t.dec.size ∧
    t.dec.i = k ∧ k.toNat < t.dec.size ∧ t.dec.codeIdx = s.dec.codeIdx + 1 ∧
    t.dec.size = (if s.dec.size = 65535 then 256 else s.dec.size) + (if s.dec.i = 65535#16 then 0 else 1)

/-- R101, R114: every `DEC.CODE` ends: with at most 65535 records it always answers a next state. -/
def Obligations.EveryDecCodeEnds : Prop :=
  ∀ (i : Instr) (k : Code) (s : State), i = .decCodeClear ∨ IsDecCode i k → s.mode = .decompress →
    s.dec.phase = .run → s.dec.size ≤ 65535 → ∃ t, exec i s = .next t

/-! ### Invariants -/

/-- R24, R29, R87 item 5, R110: the invariant of the core is kept by every step. -/
def Obligations.EveryStepKeepsTheInvariant : Prop :=
  ∀ s t : State, Inv s → step s = .next t → Inv t

/-- The two invariants hold at power-on. This is the model's: R140 leaves the fault records unspecified
then, and that they are NONE is log 3. -/
def Obligations.PowerOnMeetsTheInvariants : Prop := Inv State.reset ∧ EpochInv State.reset

/-- R79, R89, R105: the entry counts keep step with the codes emitted and consumed, 65279 codes an epoch. -/
def Obligations.EveryStepKeepsTheEpochAccounting : Prop :=
  ∀ s t : State, Inv s → EpochInv s → step s = .next t → EpochInv t

/-! ### The two contracts -/

/-- R113: `encode` is total, its codes depend on the input alone, are assignable, at most one a byte and
none only for the empty input, and the codes of an input, its last apart, begin those of any longer one. -/
def Obligations.EncodeIsATotalStreamingFunction : Prop :=
  ∃ codes : List Byte → List Code,
    (∀ (x : List Byte) (s : State), s.mode = .compress → s.enc.phase ≠ .run → s.sink = [] →
      ∃ t, execAll (encodeMacro x) s = .next t ∧ t.enc.phase = .done ∧
        t.output = s.output ++ wireBytes s.byteOrder (codes x) ∧
        t.enc.outCodes = (codes x).length ∧ t.enc.inPos = x.length) ∧
    (∀ x, (∀ v ∈ codes x, v.toNat ≤ 65534) ∧ (codes x).length ≤ x.length ∧ (codes x = [] ↔ x = [])) ∧
    (∀ x y, (codes x).dropLast <+: codes (x ++ y))

/-- R114, R122: `decode` always ends, in `DONE` or in `FAULT`; in `DONE` only on a stream of even length,
and on a channel that never fails never in `Transport`. -/
def Obligations.DecodeAlwaysEnds : Prop :=
  ∀ (y : List Byte) (s : State), s.mode = .decompress → s.dec.phase ≠ .run → s.sink = [] →
    ∃ t, execUntilEnd .decoder (decodeMacro y) s = .next t ∧
      (t.dec.phase = .done ∧ t.dec.fault = .none ∧ y.length % 2 = 0 ∧ t.dec.inPos = y.length ∨
        t.dec.phase = .fault ∧ t.dec.fault ≠ .none ∧ ∀ e c, t.dec.fault ≠ .transport e c)

/-- R117, S1, S2: the empty and the one-byte input. -/
def Obligations.EmptyAndSingleByteInputs : Prop :=
  ∀ (s : State) (b : Byte), s.sink = [] →
    (s.mode = .compress → s.enc.phase ≠ .run →
      (∃ t, execAll (encodeMacro []) s = .next t ∧ t.enc.phase = .done ∧ t.output = s.output) ∧
      (∃ t, execAll (encodeMacro [b]) s = .next t ∧ t.enc.phase = .done ∧ t.enc.outCodes = 1 ∧
        t.output = s.output ++ [wireFirst s.byteOrder (BitVec.ofNat 16 b.toNat),
          wireSecond s.byteOrder (BitVec.ofNat 16 b.toNat)])) ∧
    (s.mode = .decompress → s.dec.phase ≠ .run →
      ∃ t, execAll (decodeMacro []) s = .next t ∧ t.dec.phase = .done ∧ t.output = s.output)

/-- R116: for every finite byte sequence, `decode(encode(x)) = x`, with the same byte order on both
sides and channels that never fail, whatever earlier runs left: `w` is what the encoder's run wrote, and
the decoder's run writes `x`. -/
def Obligations.DecodeInvertsEncodeOnEveryInput : Prop :=
  ∀ (x : List Byte) (s : State), s.mode = .compress → s.enc.phase ≠ .run → s.sink = [] →
    ∃ (t : State) (w : List Byte), execAll (encodeMacro x) s = .next t ∧ t.enc.phase = .done ∧
      t.output = s.output ++ w ∧
      ∀ u : State, u.mode = .decompress → u.dec.phase ≠ .run → u.sink = [] → u.byteOrder = s.byteOrder →
        ∃ v, execAll (decodeMacro w) u = .next v ∧ v.dec.phase = .done ∧ v.output = u.output ++ x
end

