-- ==== Sys2Proof/Laws/State.lean ====
section
/-! SUPPORT. One lemma per field per update of `State`, true by rfl, so that no proof unfolds an update. -/

namespace Sys2Proof.Machine

@[simp] theorem State.withMode_mode (s : State) (m : Mode) : (s.withMode m).mode = m := rfl
@[simp] theorem State.withMode_byteOrder (s : State) (m : Mode) : (s.withMode m).byteOrder = s.byteOrder := rfl
@[simp] theorem State.withMode_enc (s : State) (m : Mode) : (s.withMode m).enc = s.enc := rfl
@[simp] theorem State.withMode_dec (s : State) (m : Mode) : (s.withMode m).dec = s.dec := rfl
@[simp] theorem State.withMode_input (s : State) (m : Mode) : (s.withMode m).input = s.input := rfl
@[simp] theorem State.withMode_sink (s : State) (m : Mode) : (s.withMode m).sink = s.sink := rfl
@[simp] theorem State.withMode_output (s : State) (m : Mode) : (s.withMode m).output = s.output := rfl
@[simp] theorem State.withMode_freeIdx (s : State) (m : Mode) : (s.withMode m).freeIdx = s.freeIdx := rfl

@[simp] theorem State.withEnc_mode (s : State) (e : Enc) : (s.withEnc e).mode = s.mode := rfl
@[simp] theorem State.withEnc_byteOrder (s : State) (e : Enc) : (s.withEnc e).byteOrder = s.byteOrder := rfl
@[simp] theorem State.withEnc_enc (s : State) (e : Enc) : (s.withEnc e).enc = e := rfl
@[simp] theorem State.withEnc_dec (s : State) (e : Enc) : (s.withEnc e).dec = s.dec := rfl
@[simp] theorem State.withEnc_input (s : State) (e : Enc) : (s.withEnc e).input = s.input := rfl
@[simp] theorem State.withEnc_sink (s : State) (e : Enc) : (s.withEnc e).sink = s.sink := rfl
@[simp] theorem State.withEnc_output (s : State) (e : Enc) : (s.withEnc e).output = s.output := rfl
@[simp] theorem State.withEnc_freeIdx (s : State) (e : Enc) : (s.withEnc e).freeIdx = s.freeIdx := rfl

@[simp] theorem State.withDec_mode (s : State) (d : Dec) : (s.withDec d).mode = s.mode := rfl
@[simp] theorem State.withDec_byteOrder (s : State) (d : Dec) : (s.withDec d).byteOrder = s.byteOrder := rfl
@[simp] theorem State.withDec_enc (s : State) (d : Dec) : (s.withDec d).enc = s.enc := rfl
@[simp] theorem State.withDec_dec (s : State) (d : Dec) : (s.withDec d).dec = d := rfl
@[simp] theorem State.withDec_input (s : State) (d : Dec) : (s.withDec d).input = s.input := rfl
@[simp] theorem State.withDec_sink (s : State) (d : Dec) : (s.withDec d).sink = s.sink := rfl
@[simp] theorem State.withDec_output (s : State) (d : Dec) : (s.withDec d).output = s.output := rfl
@[simp] theorem State.withDec_freeIdx (s : State) (d : Dec) : (s.withDec d).freeIdx = s.freeIdx := rfl

@[simp] theorem State.withInput_mode (s : State) (l : List HostEvent) : (s.withInput l).mode = s.mode := rfl
@[simp] theorem State.withInput_byteOrder (s : State) (l : List HostEvent) : (s.withInput l).byteOrder = s.byteOrder := rfl
@[simp] theorem State.withInput_enc (s : State) (l : List HostEvent) : (s.withInput l).enc = s.enc := rfl
@[simp] theorem State.withInput_dec (s : State) (l : List HostEvent) : (s.withInput l).dec = s.dec := rfl
@[simp] theorem State.withInput_input (s : State) (l : List HostEvent) : (s.withInput l).input = l := rfl
@[simp] theorem State.withInput_sink (s : State) (l : List HostEvent) : (s.withInput l).sink = s.sink := rfl
@[simp] theorem State.withInput_output (s : State) (l : List HostEvent) : (s.withInput l).output = s.output := rfl
@[simp] theorem State.withInput_freeIdx (s : State) (l : List HostEvent) : (s.withInput l).freeIdx = s.freeIdx := rfl

@[simp] theorem State.withSink_mode (s : State) (l : List SinkReply) : (s.withSink l).mode = s.mode := rfl
@[simp] theorem State.withSink_byteOrder (s : State) (l : List SinkReply) : (s.withSink l).byteOrder = s.byteOrder := rfl
@[simp] theorem State.withSink_enc (s : State) (l : List SinkReply) : (s.withSink l).enc = s.enc := rfl
@[simp] theorem State.withSink_dec (s : State) (l : List SinkReply) : (s.withSink l).dec = s.dec := rfl
@[simp] theorem State.withSink_input (s : State) (l : List SinkReply) : (s.withSink l).input = s.input := rfl
@[simp] theorem State.withSink_sink (s : State) (l : List SinkReply) : (s.withSink l).sink = l := rfl
@[simp] theorem State.withSink_output (s : State) (l : List SinkReply) : (s.withSink l).output = s.output := rfl
@[simp] theorem State.withSink_freeIdx (s : State) (l : List SinkReply) : (s.withSink l).freeIdx = s.freeIdx := rfl

@[simp] theorem State.withOutput_mode (s : State) (l : List Byte) : (s.withOutput l).mode = s.mode := rfl
@[simp] theorem State.withOutput_byteOrder (s : State) (l : List Byte) : (s.withOutput l).byteOrder = s.byteOrder := rfl
@[simp] theorem State.withOutput_enc (s : State) (l : List Byte) : (s.withOutput l).enc = s.enc := rfl
@[simp] theorem State.withOutput_dec (s : State) (l : List Byte) : (s.withOutput l).dec = s.dec := rfl
@[simp] theorem State.withOutput_input (s : State) (l : List Byte) : (s.withOutput l).input = s.input := rfl
@[simp] theorem State.withOutput_sink (s : State) (l : List Byte) : (s.withOutput l).sink = s.sink := rfl
@[simp] theorem State.withOutput_output (s : State) (l : List Byte) : (s.withOutput l).output = l := rfl
@[simp] theorem State.withOutput_freeIdx (s : State) (l : List Byte) : (s.withOutput l).freeIdx = s.freeIdx := rfl

@[simp] theorem State.withFreeIdx_mode (s : State) (n : Nat) : (s.withFreeIdx n).mode = s.mode := rfl
@[simp] theorem State.withFreeIdx_byteOrder (s : State) (n : Nat) : (s.withFreeIdx n).byteOrder = s.byteOrder := rfl
@[simp] theorem State.withFreeIdx_enc (s : State) (n : Nat) : (s.withFreeIdx n).enc = s.enc := rfl
@[simp] theorem State.withFreeIdx_dec (s : State) (n : Nat) : (s.withFreeIdx n).dec = s.dec := rfl
@[simp] theorem State.withFreeIdx_input (s : State) (n : Nat) : (s.withFreeIdx n).input = s.input := rfl
@[simp] theorem State.withFreeIdx_sink (s : State) (n : Nat) : (s.withFreeIdx n).sink = s.sink := rfl
@[simp] theorem State.withFreeIdx_output (s : State) (n : Nat) : (s.withFreeIdx n).output = s.output := rfl
@[simp] theorem State.withFreeIdx_freeIdx (s : State) (n : Nat) : (s.withFreeIdx n).freeIdx = n := rfl

@[simp] theorem State.wrote_mode (s : State) (bs : List Byte) : (s.wrote bs).mode = s.mode := rfl
@[simp] theorem State.wrote_byteOrder (s : State) (bs : List Byte) : (s.wrote bs).byteOrder = s.byteOrder := rfl
@[simp] theorem State.wrote_enc (s : State) (bs : List Byte) : (s.wrote bs).enc = s.enc := rfl
@[simp] theorem State.wrote_dec (s : State) (bs : List Byte) : (s.wrote bs).dec = s.dec := rfl
@[simp] theorem State.wrote_input (s : State) (bs : List Byte) : (s.wrote bs).input = s.input := rfl
@[simp] theorem State.wrote_sink (s : State) (bs : List Byte) : (s.wrote bs).sink = s.sink.drop bs.length := rfl
@[simp] theorem State.wrote_output (s : State) (bs : List Byte) : (s.wrote bs).output = s.output ++ bs := rfl
@[simp] theorem State.wrote_freeIdx (s : State) (bs : List Byte) : (s.wrote bs).freeIdx = s.freeIdx := rfl

/-! What a `raise` changes: the fault register and the phase of its machine (R130). -/

@[simp] theorem raise_mode (a : Agent) (f : FaultRecord) (s : State) : (raise a f s).mode = s.mode := by
  cases a <;> rfl
@[simp] theorem raise_byteOrder (a : Agent) (f : FaultRecord) (s : State) :
    (raise a f s).byteOrder = s.byteOrder := by cases a <;> rfl
@[simp] theorem raise_input (a : Agent) (f : FaultRecord) (s : State) : (raise a f s).input = s.input := by
  cases a <;> rfl
@[simp] theorem raise_sink (a : Agent) (f : FaultRecord) (s : State) : (raise a f s).sink = s.sink := by
  cases a <;> rfl
@[simp] theorem raise_output (a : Agent) (f : FaultRecord) (s : State) : (raise a f s).output = s.output := by
  cases a <;> rfl
@[simp] theorem raise_freeIdx (a : Agent) (f : FaultRecord) (s : State) : (raise a f s).freeIdx = s.freeIdx := by
  cases a <;> rfl
@[simp] theorem raise_encoder_enc (f : FaultRecord) (s : State) :
    (raise .encoder f s).enc = { s.enc with fault := f, phase := .fault } := rfl
@[simp] theorem raise_encoder_dec (f : FaultRecord) (s : State) : (raise .encoder f s).dec = s.dec := rfl
@[simp] theorem raise_decoder_dec (f : FaultRecord) (s : State) :
    (raise .decoder f s).dec = { s.dec with fault := f, phase := .fault } := rfl
@[simp] theorem raise_decoder_enc (f : FaultRecord) (s : State) : (raise .decoder f s).enc = s.enc := rfl

/-! `RESEED` and the capacity checks: the store and nothing else (R75 to R77). -/

@[simp] theorem reseedEncoder_enc (s : State) : (reseedEncoder s).enc = { s.enc with dict := encBase } := rfl
@[simp] theorem reseedEncoder_dec (s : State) : (reseedEncoder s).dec = s.dec := rfl
@[simp] theorem reseedDecoder_dec (s : State) : (reseedDecoder s).dec = { s.dec with dict := decBase } := rfl
@[simp] theorem reseedDecoder_enc (s : State) : (reseedDecoder s).enc = s.enc := rfl

/-- R77, R82: below capacity the check changes nothing. -/
theorem encCapacityCheck_below {s : State} (h : s.enc.size ≠ Config.capacity) : encCapacityCheck s = s := by
  simp [encCapacityCheck, h]

/-- R77, R82: at capacity it is `RESEED`. -/
theorem encCapacityCheck_full {s : State} (h : s.enc.size = Config.capacity) :
    encCapacityCheck s = reseedEncoder s := by simp [encCapacityCheck, h]

/-- R77, R93: below capacity the check changes nothing. -/
theorem decCapacityCheck_below {s : State} (h : s.dec.size ≠ Config.capacity) : decCapacityCheck s = s := by
  simp [decCapacityCheck, h]

/-- R77, R93: at capacity it is `RESEED`. -/
theorem decCapacityCheck_full {s : State} (h : s.dec.size = Config.capacity) :
    decCapacityCheck s = reseedDecoder s := by simp [decCapacityCheck, h]

end Sys2Proof.Machine
end

