-- ==== Sys2Proof/Laws/Guards.lean ====
section
/-! SUPPORT. What the guards of R112 let through, and how a `Flow` ends. -/

namespace Sys2Proof.Machine

theorem whenRunning_eq {a : Agent} {s : State} (body : State → Result)
    (hm : selectedAgent s.mode = a) (hp : s.phaseOf a = .run) : whenRunning a s body = body s := by
  simp [whenRunning, hm, hp]

/-- R112: a guarded operation answers a next state only with its machine selected and in `RUN`. -/
theorem whenRunning_next {a : Agent} {s t : State} {body : State → Result}
    (h : whenRunning a s body = .next t) :
    selectedAgent s.mode = a ∧ s.phaseOf a = .run ∧ body s = .next t := by
  unfold whenRunning at h
  split at h
  · cases h
  · split at h
    · cases h
    · exact ⟨by simp_all, by simp_all, h⟩

/-- R112: outside its enabling condition a guarded operation has no step. -/
theorem whenRunning_refused {a : Agent} {s : State} (body : State → Result)
    (h : selectedAgent s.mode ≠ a ∨ s.phaseOf a ≠ .run) : ∃ r, whenRunning a s body = .refused r := by
  unfold whenRunning
  split
  · exact ⟨_, rfl⟩
  · rename_i hm
    rw [if_pos (h.resolve_left hm)]
    exact ⟨_, rfl⟩

theorem whenStartable_eq {a : Agent} {s : State} (body : State → Result)
    (hm : selectedAgent s.mode = a) (hp : s.phaseOf a ≠ .run) : whenStartable a s body = body s := by
  simp [whenStartable, hm, hp]

/-- R112: `START` answers a next state only with its machine selected and not in `RUN`. -/
theorem whenStartable_next {a : Agent} {s t : State} {body : State → Result}
    (h : whenStartable a s body = .next t) :
    selectedAgent s.mode = a ∧ s.phaseOf a ≠ .run ∧ body s = .next t := by
  unfold whenStartable at h
  split at h
  · cases h
  · split at h
    · cases h
    · exact ⟨by simp_all, by assumption, h⟩

/-- R112: `START` of a machine that is not selected, or is in `RUN`, has no step. -/
theorem whenStartable_refused {a : Agent} {s : State} (body : State → Result)
    (h : selectedAgent s.mode ≠ a ∨ s.phaseOf a = .run) : ∃ r, whenStartable a s body = .refused r := by
  unfold whenStartable
  split
  · exact ⟨_, rfl⟩
  · rename_i hm
    rw [if_pos (h.resolve_left hm)]
    exact ⟨_, rfl⟩

@[simp] theorem selectedAgent_encoder {m : Mode} : selectedAgent m = .encoder ↔ m = .compress := by
  cases m <;> simp [selectedAgent]

@[simp] theorem selectedAgent_decoder {m : Mode} : selectedAgent m = .decoder ↔ m = .decompress := by
  cases m <;> simp [selectedAgent]

@[simp] theorem phaseOf_encoder (s : State) : s.phaseOf .encoder = s.enc.phase := rfl
@[simp] theorem phaseOf_decoder (s : State) : s.phaseOf .decoder = s.dec.phase := rfl

@[simp] theorem Flow.andThen_go (s : State) (rest : State → Flow) : (Flow.go s).andThen rest = rest s := rfl
@[simp] theorem Flow.andThen_raised (s : State) (rest : State → Flow) :
    (Flow.raised s).andThen rest = .raised s := rfl
@[simp] theorem Flow.andThen_stuck (f : Fault) (rest : State → Flow) :
    (Flow.stuck f).andThen rest = .stuck f := rfl
@[simp] theorem Flow.finish_go (s : State) : (Flow.go s).finish = .next s := rfl
@[simp] theorem Flow.finish_raised (s : State) : (Flow.raised s).finish = .next s := rfl
@[simp] theorem Flow.finish_stuck (f : Fault) : (Flow.stuck f).finish = .fault f := rfl

/-- R130: an operation answers a next state by going on to its end or by a `raise`. -/
theorem Flow.finish_next {x : Flow} {t : State} (h : x.finish = .next t) : x = .go t ∨ x = .raised t := by
  cases x <;> simp_all [Flow.finish]

/-- R130: a composite operation went on from a first part that went on. -/
theorem Flow.andThen_eq_go {x : Flow} {rest : State → Flow} {t : State} (h : x.andThen rest = .go t) :
    ∃ s, x = .go s ∧ rest s = .go t := by
  cases x <;> simp_all [Flow.andThen]

/-- R130: a composite operation raised in its first part, or went on and raised in the rest. -/
theorem Flow.andThen_eq_raised {x : Flow} {rest : State → Flow} {t : State}
    (h : x.andThen rest = .raised t) : x = .raised t ∨ ∃ s, x = .go s ∧ rest s = .raised t := by
  cases x <;> simp_all [Flow.andThen]

end Sys2Proof.Machine
end

