-- ==== Sys2Proof/Laws/Channel.lean ====
section
/-! SUPPORT. What the output operations do (R39, R88, R98, R129): each either writes its bytes, or writes
a proper first part of them and raises `Transport`. -/

namespace Sys2Proof.Machine

theorem State.wrote_nil (s : State) : s.wrote [] = s := by
  cases s; simp [State.wrote]

theorem State.wrote_wrote (s : State) (a b : List Byte) : (s.wrote a).wrote b = s.wrote (a ++ b) := by
  cases s; simp [State.wrote]

theorem SinkAccepts.zero (s : State) : SinkAccepts 0 s := by simp [SinkAccepts]

theorem SinkAccepts.mono {m n : Nat} {s : State} (h : SinkAccepts n s) (hmn : m ≤ n) : SinkAccepts m s := by
  intro r hr
  exact h r (List.take_subset_take_left _ hmn hr)

/-- Accepting one byte and then `n` more is accepting `n + 1`. -/
theorem SinkAccepts.wrote {n : Nat} {s : State} {b : Byte} (h : SinkAccepts (n + 1) s) :
    SinkAccepts n (s.wrote [b]) := by
  intro r hr
  cases hs : s.sink with
  | nil => simp [State.wrote, hs] at hr
  | cons x xs =>
    apply h r
    simp only [State.wrote, List.length_singleton, hs, List.drop_one, List.tail_cons] at hr
    simp [hs, hr]

/-- R39: an accepted byte is appended. -/
theorem outByte_accept (a : Agent) (b : Byte) {s : State} (h : SinkAccepts 1 s) :
    outByte a b s = .go (s.wrote [b]) := by
  unfold outByte
  cases hs : s.sink with
  | nil => cases s; simp_all [State.wrote, State.withOutput]
  | cons x xs =>
    have hx : x = .accept := h x (by simp [hs])
    subst hx
    cases s; simp_all [State.wrote, State.withOutput, State.withSink]

/-- R39, R123: a refused byte raises `Transport`, and its answer is used up. -/
theorem outByte_fail (a : Agent) (b : Byte) {s : State} {e : HostError} (h : s.sink[0]? = some (.fail e)) :
    outByte a b s = .raised (raise a (.transport e .output) (s.withSink (s.sink.drop 1))) := by
  unfold outByte
  cases hs : s.sink with
  | nil => simp [hs] at h
  | cons x xs =>
    simp [hs] at h
    subst h
    simp

/-- R39: everything `OutByte` can do. -/
theorem outByte_cases (a : Agent) (b : Byte) (s : State) :
    outByte a b s = .go (s.wrote [b]) ∨
      ∃ e, s.sink[0]? = some (.fail e) ∧
        outByte a b s = .raised (raise a (.transport e .output) (s.withSink (s.sink.drop 1))) := by
  cases hs : s.sink with
  | nil => exact .inl (outByte_accept a b (by simp [SinkAccepts, hs]))
  | cons x xs =>
    cases x with
    | accept => exact .inl (outByte_accept a b (by simp [SinkAccepts, hs]))
    | fail e =>
      refine .inr ⟨e, by simp, ?_⟩
      have := outByte_fail a b (s := s) (e := e) (by simp [hs])
      simpa [hs] using this

/-- R88: an accepted code is its two wire bytes. -/
theorem outCode_accept (v : Code) {s : State} (h : SinkAccepts 2 s) :
    outCode v s = .go (s.wrote [wireFirst s.byteOrder v, wireSecond s.byteOrder v]) := by
  unfold outCode
  rw [outByte_accept _ _ (h.mono (by omega))]
  simp only [Flow.andThen_go]
  rw [outByte_accept _ _ h.wrote, State.wrote_wrote]
  rfl

/-- R81, R85: an accepted code is counted. -/
theorem emitCode_accept (v : Code) {s : State} (h : SinkAccepts 2 s) :
    emitCode v s = .go ((s.wrote [wireFirst s.byteOrder v, wireSecond s.byteOrder v]).withEnc
      { s.enc with outCodes := s.enc.outCodes + 1 }) := by
  simp [emitCode, outCode_accept v h]

/-- R98: accepted bytes are appended in order and counted. -/
theorem emitBytes_accept (bs : List Byte) {s : State} (h : SinkAccepts bs.length s) :
    emitBytes bs s = .go ((s.wrote bs).withDec { s.dec with outPos := s.dec.outPos + bs.length }) := by
  induction bs generalizing s with
  | nil => cases s; simp [emitBytes, State.wrote, State.withDec]
  | cons b bs ih =>
    simp only [emitBytes]
    rw [outByte_accept _ _ (h.mono (by simp))]
    simp only [Flow.andThen_go]
    rw [ih]
    · cases s
      simp [State.wrote, State.withDec, Nat.add_assoc, Nat.add_comm 1]
    · exact SinkAccepts.wrote (b := b) h

/-- R129: the state in which a refused byte leaves the channels: the bytes before it are written and the
answers, the refusal among them, are used up. -/
def State.wroteUntilRefused (s : State) (bs : List Byte) : State :=
  (s.wrote bs).withSink (s.sink.drop (bs.length + 1))

/-- R88, R129: everything `OutCode` can do. -/
theorem outCode_cases (v : Code) (s : State) :
    outCode v s = .go (s.wrote [wireFirst s.byteOrder v, wireSecond s.byteOrder v]) ∨
      (∃ e, SinkFailsAfter 0 e s ∧
        outCode v s = .raised (raise .encoder (.transport e .output) (s.wroteUntilRefused []))) ∨
      (∃ e, SinkFailsAfter 1 e s ∧
        outCode v s =
          .raised (raise .encoder (.transport e .output) (s.wroteUntilRefused [wireFirst s.byteOrder v]))) := by
  unfold outCode
  rcases outByte_cases .encoder (wireFirst s.byteOrder v) s with h | ⟨e, he, h⟩
  · rw [h, Flow.andThen_go]
    rcases outByte_cases .encoder (wireSecond s.byteOrder v) (s.wrote [wireFirst s.byteOrder v]) with
      h' | ⟨e, he, h'⟩
    · exact .inl (by rw [h', State.wrote_wrote]; rfl)
    · refine .inr (.inr ⟨e, ⟨?_, by simpa using he⟩, ?_⟩)
      · intro r hr
        cases hs : s.sink with
        | nil => simp [hs] at hr
        | cons x xs =>
          simp only [hs, List.take_succ_cons, List.take_zero, List.mem_singleton] at hr
          subst hr
          cases r with
          | accept => rfl
          | fail e' =>
            have := outByte_fail .encoder (wireFirst s.byteOrder v) (s := s) (e := e') (by simp [hs])
            rw [h] at this
            cases this
      · rw [h']
        simp [State.wroteUntilRefused, State.wrote, State.withSink]
  · refine .inr (.inl ⟨e, ⟨SinkAccepts.zero s, he⟩, ?_⟩)
    rw [h, Flow.andThen_raised]
    cases s
    simp [State.wroteUntilRefused, State.wrote, State.withSink]

/-- R81, R85, R129: everything `OutCode` and its count can do. -/
theorem emitCode_cases (v : Code) (s : State) :
    emitCode v s = .go ((s.wrote [wireFirst s.byteOrder v, wireSecond s.byteOrder v]).withEnc
        { s.enc with outCodes := s.enc.outCodes + 1 }) ∨
      (∃ e, SinkFailsAfter 0 e s ∧
        emitCode v s = .raised (raise .encoder (.transport e .output) (s.wroteUntilRefused []))) ∨
      (∃ e, SinkFailsAfter 1 e s ∧
        emitCode v s =
          .raised (raise .encoder (.transport e .output) (s.wroteUntilRefused [wireFirst s.byteOrder v]))) := by
  unfold emitCode
  rcases outCode_cases v s with h | ⟨e, he, h⟩ | ⟨e, he, h⟩ <;> rw [h]
  · exact .inl rfl
  · exact .inr (.inl ⟨e, he, rfl⟩)
  · exact .inr (.inr ⟨e, he, rfl⟩)

/-- R98, R129: everything the emission of a string can do. -/
theorem emitBytes_cases (bs : List Byte) (s : State) :
    emitBytes bs s = .go ((s.wrote bs).withDec { s.dec with outPos := s.dec.outPos + bs.length }) ∨
      ∃ e n, n < bs.length ∧ SinkFailsAfter n e s ∧
        emitBytes bs s = .raised (raise .decoder (.transport e .output)
          ((s.wroteUntilRefused (bs.take n)).withDec { s.dec with outPos := s.dec.outPos + n })) := by
  induction bs generalizing s with
  | nil => exact .inl (emitBytes_accept [] (SinkAccepts.zero s))
  | cons b bs ih =>
    rcases outByte_cases .decoder b s with h | ⟨e, he, h⟩
    · have hfirst : ∀ r, s.sink[0]? = some r → r = .accept := by
        intro r hr
        cases r with
        | accept => rfl
        | fail e' => rw [outByte_fail .decoder b hr] at h; cases h
      rcases ih ((s.wrote [b]).withDec { s.dec with outPos := s.dec.outPos + 1 }) with h' | ⟨e, n, hn, hf, h'⟩
      · refine .inl ?_
        simp only [emitBytes, h, Flow.andThen_go, State.wrote_dec]
        rw [h']
        cases s
        simp [State.wrote, State.withDec, Nat.add_assoc, Nat.add_comm 1]
      · refine .inr ⟨e, n + 1, by simpa using hn, ?_, ?_⟩
        · have hf1 := hf.1
          have hf2 := hf.2
          simp only [State.withDec_sink, State.wrote_sink, List.length_singleton] at hf2
          refine ⟨?_, by simpa [Nat.add_comm] using hf2⟩
          intro r hr
          cases hs : s.sink with
          | nil => simp [hs] at hr
          | cons x xs =>
            simp only [hs, List.take_succ_cons, List.mem_cons] at hr
            rcases hr with rfl | hr
            · exact hfirst r (by simp [hs])
            · exact hf1 r (by simpa [State.wrote, State.withDec, hs] using hr)
        · simp only [emitBytes, h, Flow.andThen_go, State.wrote_dec]
          rw [h']
          cases s
          simp [State.wrote, State.withDec, State.withSink, State.wroteUntilRefused, Nat.add_comm,
            Nat.add_left_comm, List.length_take, Nat.min_eq_left (Nat.le_of_lt hn)]
    · refine .inr ⟨e, 0, by simp, ⟨SinkAccepts.zero s, he⟩, ?_⟩
      simp only [emitBytes, h, Flow.andThen_raised]
      cases s
      simp [State.wrote, State.withDec, State.withSink, State.wroteUntilRefused]

/-- R98, R129: a sink that refuses the byte after the first `n` raises `Transport` there. -/
theorem emitBytes_fail {bs : List Byte} {s : State} {e : HostError} {n : Nat} (hn : n < bs.length)
    (h : SinkFailsAfter n e s) :
    emitBytes bs s = .raised (raise .decoder (.transport e .output)
      ((s.wroteUntilRefused (bs.take n)).withDec { s.dec with outPos := s.dec.outPos + n })) := by
  induction bs generalizing s n with
  | nil => simp at hn
  | cons b bs ih =>
    cases n with
    | zero =>
      have := outByte_fail .decoder b h.2
      simp only [emitBytes, this, Flow.andThen_raised]
      cases s
      simp [State.wrote, State.withDec, State.withSink, State.wroteUntilRefused]
    | succ n =>
      have hacc : SinkAccepts 1 s := h.1.mono (by omega)
      simp only [emitBytes, outByte_accept _ _ hacc, Flow.andThen_go, State.wrote_dec]
      have hn' : n < bs.length := by simpa using hn
      rw [ih (s := (s.wrote [b]).withDec { s.dec with outPos := s.dec.outPos + 1 }) hn'
        ⟨SinkAccepts.wrote (b := b) h.1, by simpa [State.wrote, State.withDec, Nat.add_comm] using h.2⟩]
      cases s
      simp [State.wrote, State.withDec, State.withSink, State.wroteUntilRefused, Nat.add_comm,
        Nat.add_left_comm, List.length_take, Nat.min_eq_left (Nat.le_of_lt hn')]

/-- R129: a refusal of the first byte of a code. -/
theorem outCode_fail_first (v : Code) {s : State} {e : HostError} (h : SinkFailsAfter 0 e s) :
    outCode v s = .raised (raise .encoder (.transport e .output) (s.wroteUntilRefused [])) := by
  unfold outCode
  rw [outByte_fail _ _ h.2, Flow.andThen_raised]
  cases s
  simp [State.wroteUntilRefused, State.wrote, State.withSink]

/-- R129: a refusal of the second byte of a code. -/
theorem outCode_fail_second (v : Code) {s : State} {e : HostError} (h : SinkFailsAfter 1 e s) :
    outCode v s =
      .raised (raise .encoder (.transport e .output) (s.wroteUntilRefused [wireFirst s.byteOrder v])) := by
  unfold outCode
  rw [outByte_accept _ _ h.1, Flow.andThen_go,
    outByte_fail (e := e) _ _ (by simpa [State.wrote] using h.2)]
  cases s
  simp [State.wroteUntilRefused, State.wrote, State.withSink]

end Sys2Proof.Machine
end

