-- ==== Sys2Proof/Laws/Decoder.lean ====
section
/-! SUPPORT. Everything a `DEC.CODE` step can do (R92 to R101), by the class of its code and by what the
walks of the prefix chain answer. -/

namespace Sys2Proof.Machine

theorem dynamicClass_known {k : Code} {n : Nat} (h : k.toNat < n) : dynamicClass k n = .known := by
  unfold dynamicClass; rw [if_neg (by omega), if_neg (by omega)]

theorem dynamicClass_self {k : Code} {n : Nat} (h : k.toNat = n) : dynamicClass k n = .self := by
  unfold dynamicClass; rw [if_neg (by omega), if_pos h]

theorem dynamicClass_invalid {k : Code} {n : Nat} (h : n < k.toNat) : dynamicClass k n = .invalid := by
  unfold dynamicClass; rw [if_pos h]

/-- R94. -/
theorem decodeCode_invalid {k : Code} {s : State} (hl : s.dec.size < k.toNat) :
    decodeCode k s = .raised (raise .decoder (.invalidCode k s.dec.size (codeOffset s.dec)) s) := by
  simp [decodeCode, dynamicClass_invalid hl]

/-- R96. -/
theorem decodeCode_self_none {k : Code} {s : State} (hl : k.toNat = s.dec.size) (hc : s.dec.i = Config.clear) :
    decodeCode k s = .raised (raise .decoder (.emptyPrefix k (codeOffset s.dec)) s) := by
  simp [decodeCode, dynamicClass_self hl, buildSelf, hc]

/-- R95, R101: the walk of the previous code breaks. -/
theorem decodeCode_self_broken {k x : Code} {s : State} (hl : k.toNat = s.dec.size)
    (hc : s.dec.i ≠ Config.clear) (hr : rebuildString s.dec.i s.dec.dict = .broken x) :
    decodeCode k s = .raised (raise .decoder (.badPrefix s.dec.k x (codeOffset s.dec)) s) := by
  simp [decodeCode, dynamicClass_self hl, buildSelf, hc, rebuildThen, hr]

/-- R97, R101: the walk of the code breaks. -/
theorem decodeCode_known_broken {k x : Code} {s : State} (hl : k.toNat < s.dec.size)
    (hr : rebuildString k s.dec.dict = .broken x) :
    decodeCode k s = .raised (raise .decoder (.badPrefix s.dec.k x (codeOffset s.dec)) s) := by
  simp [decodeCode, dynamicClass_known hl, buildKnown, rebuildThen, hr]

/-- R97: the first code of a run appends nothing. -/
theorem decodeCode_known_first {k : Code} {s : State} {t : List Byte} (hl : k.toNat < s.dec.size)
    (hc : s.dec.i = Config.clear) (hr : rebuildString k s.dec.dict = .string t) :
    decodeCode k s = emitAndAdvance k (s.withDec { s.dec with str := t }) := by
  simp [decodeCode, dynamicClass_known hl, buildKnown, rebuildThen, hr, hc]

/-- R97: a later code appends (previous code, first byte). -/
theorem decodeCode_known_next {k : Code} {s : State} {b : Byte} {t : List Byte} (hl : k.toNat < s.dec.size)
    (hc : s.dec.i ≠ Config.clear) (hr : rebuildString k s.dec.dict = .string (b :: t)) :
    decodeCode k s = emitAndAdvance k
      (s.withDec { s.dec with str := b :: t, dict := decAppend s.dec.i b s.dec.dict }) := by
  simp [decodeCode, dynamicClass_known hl, buildKnown, rebuildThen, hr, hc, firstByteThen]

/-- R95: the SELF case appends, then walks the appended record. -/
theorem decodeCode_self_next {k : Code} {s : State} {b : Byte} {t u : List Byte} (hl : k.toNat = s.dec.size)
    (hc : s.dec.i ≠ Config.clear) (hr : rebuildString s.dec.i s.dec.dict = .string (b :: t))
    (hr' : rebuildString k (decAppend s.dec.i b s.dec.dict) = .string u) :
    decodeCode k s = emitAndAdvance k
      (s.withDec { s.dec with str := u, dict := decAppend s.dec.i b s.dec.dict }) := by
  simp [decodeCode, dynamicClass_self hl, buildSelf, rebuildThen, hr, hr', hc, firstByteThen, State.withDec]

/-- R98, R99: an accepted string is emitted and counted, and the code becomes the previous code. -/
theorem emitAndAdvance_accept {k : Code} {s : State} (ha : SinkAccepts s.dec.str.length s) :
    emitAndAdvance k s = .go ((s.wrote s.dec.str).withDec
      { s.dec with outPos := s.dec.outPos + s.dec.str.length, i := k, codeIdx := s.dec.codeIdx + 1 }) := by
  rw [emitAndAdvance, emitBytes_accept _ ha]; rfl

/-- R98, R129: everything the emission of a step's string can do. -/
theorem emitAndAdvance_cases (k : Code) (s : State) :
    emitAndAdvance k s = .go ((s.wrote s.dec.str).withDec
        { s.dec with outPos := s.dec.outPos + s.dec.str.length, i := k, codeIdx := s.dec.codeIdx + 1 }) ∨
      ∃ e n, n < s.dec.str.length ∧ SinkFailsAfter n e s ∧
        emitAndAdvance k s = .raised (raise .decoder (.transport e .output)
          ((s.wroteUntilRefused (s.dec.str.take n)).withDec { s.dec with outPos := s.dec.outPos + n })) := by
  unfold emitAndAdvance
  rcases emitBytes_cases s.dec.str s with h | ⟨e, n, hn, hf, h⟩ <;> rw [h]
  · exact .inl rfl
  · exact .inr ⟨e, n, hn, hf, rfl⟩

/-- R92, R151: everything a `DEC.CODE` step can do after its capacity check. It raises one of its three
faults on the state it found (the SELF case may raise after its append), or it sets `dec.s`, appends one
record unless there is no previous code, and goes on to the emission; it is stuck only on an empty string. -/
theorem decodeCode_cases (k : Code) (s : State) :
    (∃ f, (f = .invalidCode k s.dec.size (codeOffset s.dec) ∨ f = .emptyPrefix k (codeOffset s.dec) ∨
        ∃ x, f = .badPrefix s.dec.k x (codeOffset s.dec)) ∧ decodeCode k s = .raised (raise .decoder f s)) ∨
    (k.toNat < s.dec.size ∧ s.dec.i = Config.clear ∧ ∃ t, rebuildString k s.dec.dict = .string t ∧
      decodeCode k s = emitAndAdvance k (s.withDec { s.dec with str := t })) ∨
    (k.toNat < s.dec.size ∧ s.dec.i ≠ Config.clear ∧ ∃ b t, rebuildString k s.dec.dict = .string (b :: t) ∧
      decodeCode k s = emitAndAdvance k
        (s.withDec { s.dec with str := b :: t, dict := decAppend s.dec.i b s.dec.dict })) ∨
    (k.toNat = s.dec.size ∧ s.dec.i ≠ Config.clear ∧ ∃ b t u,
      rebuildString s.dec.i s.dec.dict = .string (b :: t) ∧
      ((rebuildString k (decAppend s.dec.i b s.dec.dict) = .string u ∧
        decodeCode k s = emitAndAdvance k
          (s.withDec { s.dec with str := u, dict := decAppend s.dec.i b s.dec.dict })) ∨
      ∃ x, rebuildString k (decAppend s.dec.i b s.dec.dict) = .broken x ∧
        decodeCode k s = .raised (raise .decoder (.badPrefix s.dec.k x (codeOffset s.dec))
          (s.withDec { s.dec with dict := decAppend s.dec.i b s.dec.dict })))) ∨
    decodeCode k s = .stuck .noFirstByte := by
  rcases Nat.lt_trichotomy k.toNat s.dec.size with hl | hl | hl
  · cases hr : rebuildString k s.dec.dict with
    | broken x => exact .inl ⟨_, .inr (.inr ⟨x, rfl⟩), decodeCode_known_broken hl hr⟩
    | string t =>
      by_cases hc : s.dec.i = Config.clear
      · exact .inr (.inl ⟨hl, hc, t, rfl, decodeCode_known_first hl hc hr⟩)
      · cases t with
        | nil =>
          refine .inr (.inr (.inr (.inr ?_)))
          simp [decodeCode, dynamicClass_known hl, buildKnown, rebuildThen, hr, hc, firstByteThen]
        | cons b t => exact .inr (.inr (.inl ⟨hl, hc, b, t, rfl, decodeCode_known_next hl hc hr⟩))
  · by_cases hc : s.dec.i = Config.clear
    · exact .inl ⟨_, .inr (.inl rfl), decodeCode_self_none hl hc⟩
    · cases hr : rebuildString s.dec.i s.dec.dict with
      | broken x => exact .inl ⟨_, .inr (.inr ⟨x, rfl⟩), decodeCode_self_broken hl hc hr⟩
      | string t =>
        cases t with
        | nil =>
          refine .inr (.inr (.inr (.inr ?_)))
          simp [decodeCode, dynamicClass_self hl, buildSelf, rebuildThen, hr, hc, firstByteThen]
        | cons b t =>
          cases hr' : rebuildString k (decAppend s.dec.i b s.dec.dict) with
          | string u =>
            exact .inr (.inr (.inr (.inl ⟨hl, hc, b, t, u, rfl, .inl ⟨hr', decodeCode_self_next hl hc hr hr'⟩⟩)))
          | broken x =>
            refine .inr (.inr (.inr (.inl ⟨hl, hc, b, t, [], rfl, .inr ⟨x, hr', ?_⟩⟩)))
            simp [decodeCode, dynamicClass_self hl, buildSelf, rebuildThen, hr, hr', hc, firstByteThen,
              State.withDec, codeOffset]
  · exact .inl ⟨_, .inl rfl, decodeCode_invalid hl⟩

end Sys2Proof.Machine
end

