-- ==== Sys2Proof/Laws/Encoder.lean ====
section
/-! SUPPORT. Everything an `ENC.BYTE` step can do (R81 to R84, R129). -/

namespace Sys2Proof.Machine

/-- The state of a miss after its insertion (R83). -/
def State.missInserted (s : State) (c : Byte) : State :=
  s.withEnc { s.enc with dict := encInsert s.enc.i c (nextCode s.enc.size) s.enc.dict }

/-- R83, R129: everything the miss case can do: start again from `c` with the previous match emitted (or
not, when there is none), or raise `Transport` with the insertion done. -/
theorem encMiss_cases (c : Byte) (s : State) :
    (s.enc.i = Config.clear ∧ encMiss c s = .go ((s.missInserted c).withEnc
      { (s.missInserted c).enc with i := baseCode c, inPos := s.enc.inPos + 1 })) ∨
    (s.enc.i ≠ Config.clear ∧ encMiss c s =
      .go (((s.missInserted c).wrote [wireFirst s.byteOrder s.enc.i, wireSecond s.byteOrder s.enc.i]).withEnc
        { (s.missInserted c).enc with
          i := baseCode c, inPos := s.enc.inPos + 1, outCodes := s.enc.outCodes + 1 })) ∨
    (s.enc.i ≠ Config.clear ∧ ∃ e, SinkFailsAfter 0 e s ∧ encMiss c s =
      .raised (raise .encoder (.transport e .output) ((s.missInserted c).wroteUntilRefused []))) ∨
    (s.enc.i ≠ Config.clear ∧ ∃ e, SinkFailsAfter 1 e s ∧ encMiss c s =
      .raised (raise .encoder (.transport e .output)
        ((s.missInserted c).wroteUntilRefused [wireFirst s.byteOrder s.enc.i]))) := by
  have hm : encMiss c s = (if s.enc.i = Config.clear then Flow.go (s.missInserted c)
      else emitCode s.enc.i (s.missInserted c)).andThen fun u =>
        .go (u.withEnc { u.enc with i := baseCode c, inPos := u.enc.inPos + 1 }) := rfl
  by_cases hc : s.enc.i = Config.clear
  · exact .inl ⟨hc, by rw [hm, if_pos hc]; rfl⟩
  · rw [hm, if_neg hc]
    rcases emitCode_cases s.enc.i (s.missInserted c) with h | ⟨e, hf, h⟩ | ⟨e, hf, h⟩ <;> rw [h]
    · exact .inr (.inl ⟨hc, rfl⟩)
    · exact .inr (.inr (.inl ⟨hc, e, hf, rfl⟩))
    · exact .inr (.inr (.inr ⟨hc, e, hf, rfl⟩))

/-- R81: the lookup finds its key: the hit case. -/
theorem encLookupStep_hit {c : Byte} {s : State} {r : Code} (h : encLookup s.enc.i c s.enc.dict = some r) :
    encLookupStep c s = .go (s.withEnc { s.enc with i := r, inPos := s.enc.inPos + 1 }) := by
  simp [encLookupStep, h, encHit]

/-- R81: the lookup does not find its key: the miss case. -/
theorem encLookupStep_miss {c : Byte} {s : State} (h : encLookup s.enc.i c s.enc.dict = none) :
    encLookupStep c s = encMiss c s := by
  simp [encLookupStep, h]

/-- R85, R129: everything `ENC.END` can do in a run. -/
theorem encEnd_cases (s : State) (h : selectedAgent s.mode = .encoder) (hp : s.phaseOf .encoder = .run) :
    (s.enc.i = Config.clear ∧ execEncEnd s = .next (s.withEnc { s.enc with phase := .done })) ∨
    (s.enc.i ≠ Config.clear ∧ execEncEnd s =
      .next ((s.wrote [wireFirst s.byteOrder s.enc.i, wireSecond s.byteOrder s.enc.i]).withEnc
        { s.enc with phase := .done, outCodes := s.enc.outCodes + 1 })) ∨
    (s.enc.i ≠ Config.clear ∧ ∃ e, SinkFailsAfter 0 e s ∧ execEncEnd s =
      .next (raise .encoder (.transport e .output) (s.wroteUntilRefused []))) ∨
    (s.enc.i ≠ Config.clear ∧ ∃ e, SinkFailsAfter 1 e s ∧ execEncEnd s =
      .next (raise .encoder (.transport e .output) (s.wroteUntilRefused [wireFirst s.byteOrder s.enc.i]))) := by
  unfold execEncEnd
  rw [whenRunning_eq _ h hp]
  by_cases hc : s.enc.i = Config.clear
  · exact .inl ⟨hc, by simp [hc]⟩
  · simp only [if_neg hc]
    rcases emitCode_cases s.enc.i s with h | ⟨e, hf, h⟩ | ⟨e, hf, h⟩ <;> rw [h]
    · exact .inr (.inl ⟨hc, rfl⟩)
    · exact .inr (.inr (.inl ⟨hc, e, hf, rfl⟩))
    · exact .inr (.inr (.inr ⟨hc, e, hf, rfl⟩))

end Sys2Proof.Machine
end

