-- ==== Sys2Proof/Laws/Stores.lean ====
section
/-! SUPPORT. The two stores: read after write, the base alphabet, and the canonical form (R31 to R36, R72). -/

namespace Sys2Proof.Machine

@[simp] theorem length_allBytes : allBytes.length = 256 := by simp [allBytes]
@[simp] theorem length_encBase : encBase.length = 256 := by simp [encBase]
@[simp] theorem length_decBase : decBase.length = 256 := by simp [decBase]

/-- R72: the base pair of a byte value is at the position of its value. -/
theorem encBase_get {n : Nat} (h : n < 256) :
    encBase[n]? = some { pre := Config.clear, byte := BitVec.ofNat 8 n, code := zext16 (BitVec.ofNat 8 n) } := by
  simp [encBase, allBytes, h]

/-- R72: the base record of a byte value is at the index of its value. -/
theorem decBase_get {n : Nat} (h : n < 256) :
    decBase[n]? = some { pre := Config.clear, byte := BitVec.ofNat 8 n } := by
  simp [decBase, allBytes, h]

/-- R31, R32: read after write of the same key. -/
theorem encLookup_insert_same {p : Code} {b : Byte} (n : Code) {d : List EncEntry}
    (h : encLookup p b d = none) : encLookup p b (encInsert p b n d) = some n := by
  unfold encLookup at h ⊢
  rw [Option.map_eq_none_iff] at h
  simp only [encInsert, List.find?_append, h]
  simp

/-- R32: an insertion never changes the value of another key. -/
theorem encLookup_insert_other {p q : Code} {b c : Byte} (n : Code) (d : List EncEntry)
    (h : ¬(p = q ∧ b = c)) : encLookup q c (encInsert p b n d) = encLookup q c d := by
  unfold encLookup
  simp only [encInsert, List.find?_append, List.find?_cons, decide_eq_false h, List.find?_nil, Option.or_none]

/-- R32: a key in use is found with some value. -/
theorem encLookup_none {p : Code} {b : Byte} {d : List EncEntry} :
    encLookup p b d = none ↔ ∀ e ∈ d, ¬(e.pre = p ∧ e.byte = b) := by
  simp [encLookup]

/-- R36: the appended record is at index `dec.size`. -/
theorem decRead_append_new (p : Code) (b : Byte) (d : List DecRecord) :
    (decAppend p b d)[d.length]? = some { pre := p, byte := b } := by
  simp [decAppend]

/-- R36: an append never changes another record. -/
theorem decRead_append_old {n : Nat} (p : Code) (b : Byte) {d : List DecRecord} (h : n < d.length) :
    (decAppend p b d)[n]? = d[n]? := by
  simp [decAppend, List.getElem?_append_left h]

/-- R35: nothing is at or beyond `dec.size`. -/
theorem decRead_none {n : Code} {d : List DecRecord} : decRead n d = none ↔ d.length ≤ n.toNat := by
  simp [decRead]

/-- The store `RESEED` and `START` leave is in canonical form. -/
theorem encBase_wf : Memory.wf encBase := by
  have hb : ∀ n, n < 256 → (zext16 (BitVec.ofNat 8 n)).toNat = n := by
    intro n hn
    simp [zext16]
    omega
  unfold Memory.wf
  rw [List.pairwise_iff_getElem]
  intro i j hi hj hij
  simp only [length_encBase] at hi hj
  have ei := encBase_get hi
  have ej := encBase_get hj
  rw [List.getElem?_eq_getElem (by simpa using hi)] at ei
  rw [List.getElem?_eq_getElem (by simpa using hj)] at ej
  rw [Option.some.inj ei, Option.some.inj ej]
  refine ⟨by simp only [hb i hi, hb j hj]; exact hij, ?_⟩
  rintro ⟨-, h⟩
  have := congrArg BitVec.toNat h
  simp at this
  omega

/-- The power-on store is in canonical form. -/
theorem reset_wf : Memory.wf State.reset.enc.dict := List.Pairwise.nil

/-- An insertion keeps the canonical form: the key is absent and the code is above every code in the store. -/
theorem encInsert_wf {p : Code} {b : Byte} {n : Code} {d : List EncEntry} (h : Memory.wf d)
    (habs : encLookup p b d = none) (hn : ∀ e ∈ d, e.code.toNat < n.toNat) : Memory.wf (encInsert p b n d) := by
  unfold Memory.wf encInsert
  rw [List.pairwise_append]
  refine ⟨h, List.pairwise_singleton _ _, ?_⟩
  intro e he f hf
  simp only [List.mem_singleton] at hf
  subst hf
  exact ⟨hn e he, encLookup_none.mp habs e he⟩

/-- R29: a store of a started run is in canonical form. -/
theorem EncStoreOk.wf {d : List EncEntry} (h : EncStoreOk d) : Memory.wf d := by
  unfold Memory.wf
  rw [List.pairwise_iff_getElem]
  intro i j hi hj hij
  have hk := (List.pairwise_iff_getElem.mp h.keys) i j hi hj hij
  refine ⟨?_, hk⟩
  rw [h.codes i _ (List.getElem?_eq_getElem hi), h.codes j _ (List.getElem?_eq_getElem hj)]
  exact hij

end Sys2Proof.Machine
end

