-- ==== Sys2Proof/Laws/Invariant.lean ====
section
/-! SUPPORT. The store invariants of R29: the base alphabet has them, and the two operations that grow a
store keep them. -/

namespace Sys2Proof.Machine

theorem zext16_eq (b : Byte) : zext16 b = BitVec.ofNat 16 b.toNat := by
  apply BitVec.eq_of_toNat_eq
  simp [zext16]

/-- R72: the base alphabet written out by number. -/
theorem encBase_eq : encBase = (List.range 256).map fun b =>
    { pre := 0xFFFF#16, byte := BitVec.ofNat 8 b, code := BitVec.ofNat 16 b } := by
  simp only [encBase, allBytes, List.map_map]
  apply List.map_congr_left
  intro b hb
  have hlt : b < 256 := by simpa using hb
  have hz : zext16 (BitVec.ofNat 8 b) = BitVec.ofNat 16 b := by
    rw [zext16_eq, BitVec.toNat_ofNat, Nat.mod_eq_of_lt hlt]
  simp only [Function.comp, hz]

/-- R72: the base records written out by number. -/
theorem decBase_eq : decBase = (List.range 256).map fun b =>
    { pre := 0xFFFF#16, byte := BitVec.ofNat 8 b } := by
  simp only [decBase, allBytes, List.map_map]
  rfl

theorem EncStoreOk.size_ge {d : List EncEntry} (h : EncStoreOk d) : 256 ≤ d.length := by
  have := congrArg List.length h.base
  simp at this
  omega

theorem DecStoreOk.size_ge {d : List DecRecord} (h : DecStoreOk d) : 256 ≤ d.length := by
  have := congrArg List.length h.base
  simp at this
  omega

/-- R29 item 2: a base pair of a started encoder store. -/
theorem EncStoreOk.base_get {d : List EncEntry} (h : EncStoreOk d) {n : Nat} (hn : n < 256) :
    d[n]? = some { pre := Config.clear, byte := BitVec.ofNat 8 n, code := zext16 (BitVec.ofNat 8 n) } := by
  rw [← encBase_get hn, ← h.base]
  simp [hn]

/-- R29 item 2: a base record of a started decoder store. -/
theorem DecStoreOk.base_get {d : List DecRecord} (h : DecStoreOk d) {n : Nat} (hn : n < 256) :
    d[n]? = some { pre := Config.clear, byte := BitVec.ofNat 8 n } := by
  rw [← decBase_get hn, ← h.base]
  simp [hn]

/-- A lookup finds the entry with its key when keys are unique. -/
theorem encLookup_of_mem {d : List EncEntry} {e : EncEntry} (he : e ∈ d)
    (hk : d.Pairwise fun a b => ¬(a.pre = b.pre ∧ a.byte = b.byte)) :
    encLookup e.pre e.byte d = some e.code := by
  induction d with
  | nil => cases he
  | cons a d ih =>
    rw [List.pairwise_cons] at hk
    unfold encLookup
    rw [List.find?_cons]
    rcases List.mem_cons.mp he with rfl | hmem
    · simp
    · have := hk.1 e hmem
      simp only [decide_eq_false this]
      exact ih hmem hk.2

/-- A lookup that answers a code found an entry with the key and the code. -/
theorem encLookup_some {d : List EncEntry} {p v : Code} {b : Byte} (h : encLookup p b d = some v) :
    ∃ e ∈ d, e.pre = p ∧ e.byte = b ∧ e.code = v := by
  unfold encLookup at h
  obtain ⟨e, he, rfl⟩ := Option.map_eq_some_iff.mp h
  have h1 := List.find?_some he
  simp only [decide_eq_true_eq] at h1
  exact ⟨e, List.mem_of_find?_eq_some he, h1.1, h1.2, rfl⟩

/-- R29 item 3: every code in the store is below the entry count. -/
theorem EncStoreOk.code_lt {d : List EncEntry} (h : EncStoreOk d) {e : EncEntry} (he : e ∈ d) :
    e.code.toNat < d.length := by
  obtain ⟨n, hn, rfl⟩ := List.mem_iff_getElem.mp he
  rw [h.codes n _ (List.getElem?_eq_getElem hn)]
  exact hn

theorem EncStoreOk.ofBase : EncStoreOk encBase where
  base := by rw [List.take_of_length_le (by simp)]
  bound := by simp
  codes := by
    intro n e he
    have hn : n < 256 := by simpa using (List.getElem?_eq_some_iff.mp he).1
    rw [encBase_get hn] at he
    cases he
    simp [zext16]
    omega
  keys := encBase_wf.imp fun h => h.2
  learned := by
    intro n e hn he
    have : n < 256 := by simpa using (List.getElem?_eq_some_iff.mp he).1
    omega

theorem DecStoreOk.ofBase : DecStoreOk decBase where
  base := by rw [List.take_of_length_le (by simp)]
  bound := by simp
  noClear := by
    intro n e hn he
    have : n < 256 := by simpa using (List.getElem?_eq_some_iff.mp he).1
    omega
  below := by
    intro n e hn he
    have : n < 256 := by simpa using (List.getElem?_eq_some_iff.mp he).1
    omega

/-- R83: the insertion of a miss keeps the encoder store's invariant. -/
theorem EncStoreOk.insert {d : List EncEntry} (h : EncStoreOk d) {p : Code} {b : Byte}
    (habs : encLookup p b d = none) (hp : p.toNat < d.length) (hl : d.length ≤ 65534) :
    EncStoreOk (encInsert p b (nextCode d.length) d) where
  base := by
    rw [encInsert, List.take_append_of_le_length h.size_ge, h.base]
  bound := by simp [encInsert]; omega
  codes := by
    intro n e he
    rcases Nat.lt_or_ge n d.length with hn | hn
    · rw [encInsert, List.getElem?_append_left hn] at he
      exact h.codes n e he
    · have hlt := (List.getElem?_eq_some_iff.mp he).1
      simp [encInsert] at hlt
      obtain rfl : n = d.length := by omega
      simp [encInsert] at he
      subst he
      simp [nextCode]
      omega
  keys := by
    rw [encInsert, List.pairwise_append]
    refine ⟨h.keys, List.pairwise_singleton _ _, ?_⟩
    intro e he f hf
    simp only [List.mem_singleton] at hf
    subst hf
    exact encLookup_none.mp habs e he
  learned := by
    intro n e hn he
    rcases Nat.lt_or_ge n d.length with hn' | hn'
    · rw [encInsert, List.getElem?_append_left hn'] at he
      exact h.learned n e hn he
    · have hlt := (List.getElem?_eq_some_iff.mp he).1
      simp [encInsert] at hlt
      obtain rfl : n = d.length := by omega
      simp [encInsert] at he
      subst he
      refine ⟨hp, ?_⟩
      rintro rfl
      simp at hp
      omega

/-- R95, R97: an append keeps the decoder store's invariant; only the record at index 256 may have a
prefix that is not below its own index (R106). -/
theorem DecStoreOk.append {d : List DecRecord} (h : DecStoreOk d) {p : Code} {b : Byte}
    (hc : p ≠ Config.clear) (hp : 257 ≤ d.length → p.toNat < d.length) (hl : d.length ≤ 65534) :
    DecStoreOk (decAppend p b d) where
  base := by rw [decAppend, List.take_append_of_le_length h.size_ge, h.base]
  bound := by simp [decAppend]; omega
  noClear := by
    intro n r hn hr
    rcases Nat.lt_or_ge n d.length with hn' | hn'
    · rw [decRead_append_old _ _ hn'] at hr
      exact h.noClear n r hn hr
    · have hlt := (List.getElem?_eq_some_iff.mp hr).1
      simp [decAppend] at hlt
      obtain rfl : n = d.length := by omega
      rw [decRead_append_new] at hr
      cases hr
      exact hc
  below := by
    intro n r hn hr
    rcases Nat.lt_or_ge n d.length with hn' | hn'
    · rw [decRead_append_old _ _ hn'] at hr
      exact h.below n r hn hr
    · have hlt := (List.getElem?_eq_some_iff.mp hr).1
      simp [decAppend] at hlt
      obtain rfl : n = d.length := by omega
      rw [decRead_append_new] at hr
      cases hr
      exact hp hn

end Sys2Proof.Machine
end

