-- ==== Sys2Proof/Laws/PerInstr.lean ====
section
/-! SUPPORT. The family `EncodingRow`: the word of a well-formed operation fits its row of
spec/opcode_table.json, `word & mask = match`, operation by operation. -/

namespace Sys2Proof.Laws.EncodingRow

/-- The number a presented word is. -/
def wordOf : Presented → Nat
  | .mode1 w => w.toNat
  | .t10 _ w => w.toNat
  | .code16 _ w => w.toNat
  | .size16 _ w => w.toNat

/-- The `mask` of an operation's row in spec/opcode_table.json. -/
def rowMask : Instr → Nat
  | .sysSelect _ => 0x0
  | .encStart => 0x300
  | .encByte _ => 0x300
  | .encEnd => 0x300
  | .decStart => 0x300
  | .decIn _ => 0x300
  | .decEnd => 0x300
  | .t10Reserved => 0x300
  | .decCodeBase _ => 0xFF00
  | .decCodeLearned _ => 0x0
  | .decCodeClear => 0xFFFF
  | .reseedEnc => 0xFFFF
  | .reseedDec => 0xFFFF
  | .rebuild _ => 0x0
  | .outCode _ => 0x0

/-- The `match` of an operation's row in spec/opcode_table.json. -/
def rowMatch : Instr → Nat
  | .sysSelect _ => 0x0
  | .encStart => 0x000
  | .encByte _ => 0x100
  | .encEnd => 0x200
  | .decStart => 0x000
  | .decIn _ => 0x100
  | .decEnd => 0x200
  | .t10Reserved => 0x300
  | .decCodeBase _ => 0x0000
  | .decCodeLearned _ => 0x0000
  | .decCodeClear => 0xFFFF
  | .reseedEnc => 0xFFFF
  | .reseedDec => 0xFFFF
  | .rebuild _ => 0x0000
  | .outCode _ => 0x0000

/-- The encoded word of the operation fits its row. -/
def Statement (i : Instr) : Prop :=
  WellFormed i = true → wordOf (encode i) &&& rowMask i = rowMatch i

theorem sysSelect (m : Mode) : Statement (.sysSelect m) := fun _ => by simp [rowMask, rowMatch]
theorem encStart : Statement .encStart := fun _ => by decide
theorem encByte (c : Byte) : Statement (.encByte c) := fun _ => by revert c; decide
theorem encEnd : Statement .encEnd := fun _ => by decide
theorem decStart : Statement .decStart := fun _ => by decide
theorem decIn (b : Byte) : Statement (.decIn b) := fun _ => by revert b; decide
theorem decEnd : Statement .decEnd := fun _ => by decide
theorem t10Reserved : Statement .t10Reserved := fun _ => by decide
theorem decCodeBase (k : Code) : Statement (.decCodeBase k) := fun h => by
  have hk : k.toNat < 256 := by simpa [WellFormed] using h
  have small : ∀ n < 256, n &&& 0xFF00 = 0x0000 := by decide +kernel
  exact small k.toNat hk
theorem decCodeLearned (k : Code) : Statement (.decCodeLearned k) := fun _ => by simp [rowMask, rowMatch]
theorem decCodeClear : Statement .decCodeClear := fun _ => by decide
theorem reseedEnc : Statement .reseedEnc := fun _ => by decide
theorem reseedDec : Statement .reseedDec := fun _ => by decide
theorem rebuild (n : Code) : Statement (.rebuild n) := fun _ => by simp [rowMask, rowMatch]
theorem outCode (v : Code) : Statement (.outCode v) := fun _ => by simp [rowMask, rowMatch]

end Sys2Proof.Laws.EncodingRow
end

