-- ==== Sys2Proof/Laws/Walk.lean ====
section
/-! SUPPORT. The prefix-chain walk against the string of a code (R100, R101): what `walkChain` answers,
and that more fuel or a longer store changes no string. -/

namespace Sys2Proof.Machine

/-- R100: a walk that ends in a string has collected the string of its code before what it held. -/
theorem walkChain_string {d : List DecRecord} {fuel : Nat} {x : Code} {acc t : List Byte}
    (h : walkChain d fuel x acc = .string t) :
    ∃ u, Spells d x u ∧ t = u ++ acc ∧ u.length ≤ fuel := by
  induction fuel generalizing x acc with
  | zero =>
    simp only [walkChain] at h
    split at h
    · next hx => cases h; subst hx; exact ⟨[], .clear, rfl, Nat.le_refl _⟩
    · cases h
  | succ fuel ih =>
    simp only [walkChain] at h
    split at h
    · next hx => cases h; subst hx; exact ⟨[], .clear, rfl, Nat.zero_le _⟩
    · next hx =>
      split at h
      · cases h
      · next r hr =>
        obtain ⟨u, hu, rfl, hl⟩ := ih h
        exact ⟨u ++ [r.byte], .record hx hr hu, by simp, by simp; omega⟩

/-- R100: with at least as much fuel as the string has bytes, the walk ends in the string. -/
theorem walkChain_of_spells {d : List DecRecord} {x : Code} {u : List Byte} (h : Spells d x u) :
    ∀ (fuel : Nat) (acc : List Byte), u.length ≤ fuel → walkChain d fuel x acc = .string (u ++ acc) := by
  induction h with
  | clear => intro fuel acc _; cases fuel <;> simp [walkChain]
  | @record x r t hx hr ht ih =>
    intro fuel acc hf
    cases fuel with
    | zero => simp at hf
    | succ fuel =>
      have hr' : decRead x d = some r := hr
      simp only [walkChain, hr', if_neg hx]
      rw [ih fuel _ (by simp at hf; omega)]
      simp

/-- R101: everything a walk that breaks can do: it stands at an index the chain reaches, outside the store
or after the last record it may read. -/
theorem walkChain_broken {d : List DecRecord} {fuel : Nat} {n x : Code} {acc : List Byte}
    (h : walkChain d fuel n acc = .broken x) :
    ∃ steps, ChainReaches d n steps x ∧ x ≠ Config.clear ∧ steps ≤ fuel ∧
      (d.length ≤ x.toNat ∨ steps = fuel) := by
  induction fuel generalizing n acc with
  | zero =>
    rw [walkChain] at h
    split at h
    · cases h
    · cases h; exact ⟨0, .start, by assumption, Nat.le_refl _, .inr rfl⟩
  | succ fuel ih =>
    rw [walkChain] at h
    split at h
    · cases h
    · rename_i hn
      split at h
      · rename_i hr
        cases h
        exact ⟨0, .start, hn, Nat.zero_le _, .inl (List.getElem?_eq_none_iff.mp hr)⟩
      · rename_i r hr
        obtain ⟨steps, hs, hx, hle, hd⟩ := ih h
        exact ⟨steps + 1, .follow hn hr hs, hx, by omega, by omega⟩

/-- R101: a chain that leaves the store, or that has not reached `CLEAR` after the last record the walk
may read, breaks the walk there. -/
theorem walkChain_of_reaches {d : List DecRecord} {n x : Code} {steps : Nat}
    (h : ChainReaches d n steps x) (hx : x ≠ Config.clear) :
    ∀ (fuel : Nat) (acc : List Byte), steps ≤ fuel → d.length ≤ x.toNat ∨ steps = fuel →
      walkChain d fuel n acc = .broken x := by
  induction h with
  | start =>
    intro fuel acc _ hd
    cases fuel with
    | zero => simp [walkChain, hx]
    | succ fuel =>
      have hr : decRead _ d = none := List.getElem?_eq_none_iff.mpr (hd.resolve_right (by omega))
      simp [walkChain, hx, hr]
  | @follow n x r steps hn hr h ih =>
    intro fuel acc hle hd
    cases fuel with
    | zero => omega
    | succ fuel =>
      have hr' : decRead n d = some r := hr
      simp only [walkChain, if_neg hn, hr']
      exact ih hx fuel _ (by omega) (by omega)

/-- R68: a code spells at most one string. -/
theorem Spells.unique {d : List DecRecord} {x : Code} {t u : List Byte} (h : Spells d x t)
    (h' : Spells d x u) : t = u := by
  induction h generalizing u with
  | clear => cases h' with
    | clear => rfl
    | record hx _ _ => exact absurd rfl hx
  | record hx hr _ ih => cases h' with
    | clear => exact absurd rfl hx
    | record _ hr' ht' =>
      rw [hr] at hr'
      cases hr'
      rw [ih ht']

/-- R36, R48: an append changes no string. -/
theorem Spells.append {d : List DecRecord} {x : Code} {t : List Byte} (h : Spells d x t)
    (e : List DecRecord) : Spells (d ++ e) x t := by
  induction h with
  | clear => exact .clear
  | @record x r t hx hr ht ih =>
    refine .record hx ?_ ih
    have hlt := (List.getElem?_eq_some_iff.mp hr).1
    rw [List.getElem?_append_left hlt, hr]

/-- R104 item 3: a code other than `CLEAR` spells at least one byte. -/
theorem Spells.length_pos {d : List DecRecord} {x : Code} {t : List Byte} (h : Spells d x t)
    (hx : x ≠ Config.clear) : 1 ≤ t.length := by
  cases h with
  | clear => exact absurd rfl hx
  | record => simp

/-- R95: the string of the code appended over a spelled previous code. -/
theorem Spells.appended {d : List DecRecord} {p k : Code} {b : Byte} {t : List Byte}
    (hk : k.toNat = d.length) (hc : k ≠ Config.clear) (h : Spells d p t) :
    Spells (decAppend p b d) k (t ++ [b]) := by
  refine .record (r := { pre := p, byte := b }) hc ?_ (h.append _)
  rw [hk]
  exact decRead_append_new p b d

end Sys2Proof.Machine
end

