-- ==== Sys2Proof/Tests/Slice0.lean ====
section
/-! SUPPORT. Tests from the spec (the vector's number in 95_test_vectors.md stands in each docstring), the
smoke tests of WellFormed, and for each statement with hypotheses a witness that meets them. -/

namespace Sys2Proof.Tests

open Sys2Proof.Machine

set_option Elab.async false

/-! ### Small states -/

/-- The next state of an answer. -/
def after : Result → Option State
  | .next t => some t
  | .fault _ => none
  | .refused _ => none

/-- The refusal of an answer. -/
def refusalOf : Result → Option Refusal
  | .next _ => none
  | .fault _ => none
  | .refused r => some r

/-- An encoder in `RUN` with a match code and a store, after `n` bytes. -/
def encAt (i : Code) (d : List EncEntry) (n : Nat) : State :=
  { State.reset with
    mode := .compress, enc := { i := i, dict := d, phase := .run, fault := .none, inPos := n, outCodes := 0 } }

/-- A decoder in `RUN` with a previous code and a store, after `n` codes. -/
def decAt (i : Code) (d : List DecRecord) (n : Nat) : State :=
  { State.reset with
    mode := .decompress
    dec := { Dec.reset with i := i, dict := d, phase := .run, inPos := 2 * n, codeIdx := n } }

/-- `s` with the collaborator's answers. -/
def withReplies (s : State) (l : List SinkReply) : State := { s with sink := l }

/-- `s` with one event ready. -/
def withEvent (s : State) (e : HostEvent) : State := { s with input := [e] }

/-- Learned pairs for codes 256 on: code `m` has prefix `m / 256` and byte `m % 256`. -/
def encFill (n : Nat) : List EncEntry :=
  encBase ++ (List.range n).map fun j =>
    { pre := BitVec.ofNat 16 ((256 + j) / 256), byte := BitVec.ofNat 8 (256 + j), code := BitVec.ofNat 16 (256 + j) }

/-- Learned records with prefix 0. -/
def decFill (n : Nat) : List DecRecord := decBase ++ List.replicate n { pre := 0#16, byte := 0#8 }

/-- `A` is 0x41, `B` is 0x42. -/
def storeAB : List EncEntry := encBase ++ [{ pre := 0x41#16, byte := 0x42#8, code := 256#16 }]

/-! ### WellFormed -/

theorem smoke_decCodeBase : WellFormed (.decCodeBase 256#16) = false := by decide
theorem smoke_decCodeLearned_low : WellFormed (.decCodeLearned 255#16) = false := by decide
theorem smoke_decCodeLearned_high : WellFormed (.decCodeLearned 65535#16) = false := by decide
theorem smoke_accepts : WellFormed (.decCodeBase 255#16) = true ∧ WellFormed (.decCodeLearned 256#16) = true ∧
    WellFormed (.decCodeLearned 65534#16) = true := by decide

/-! ### Decoding: words written out from R58 and the opcode table -/

theorem decode_sysSelect : decode (.mode1 0b0#1) = .ok (.sysSelect .compress) ∧
    decode (.mode1 0b1#1) = .ok (.sysSelect .decompress) := by decide
/-- W7. -/
theorem decode_encStart : decode (.t10 .compress 0b0000000000#10) = .ok .encStart := by decide
/-- W7. -/
theorem decode_encByte : decode (.t10 .compress 0b0101000001#10) = .ok (.encByte 0x41#8) := by decide
/-- W7. -/
theorem decode_encEnd : decode (.t10 .compress 0b1000000000#10) = .ok .encEnd := by decide
theorem decode_decStart : decode (.t10 .decompress 0b0010101010#10) = .ok .decStart := by decide
theorem decode_decIn : decode (.t10 .decompress 0b0110000001#10) = .ok (.decIn 0x81#8) := by decide
theorem decode_decEnd : decode (.t10 .decompress 0b1011111111#10) = .ok .decEnd := by decide
/-- W7. -/
theorem decode_t10Reserved : decode (.t10 .compress 0b1100000000#10) = .ok .t10Reserved ∧
    decode (.t10 .decompress 0b1111111111#10) = .ok .t10Reserved := by decide
/-- L5. -/
theorem decode_decCodeBase : decode (.code16 .decCode 0b0000000011111111#16) = .ok (.decCodeBase 255#16) := by decide
/-- L5. -/
theorem decode_decCodeLearned : decode (.code16 .decCode 0b0000000100000000#16) = .ok (.decCodeLearned 256#16) ∧
    decode (.code16 .decCode 0b1111111111111110#16) = .ok (.decCodeLearned 65534#16) := by decide
/-- L5. -/
theorem decode_decCodeClear : decode (.code16 .decCode 0b1111111111111111#16) = .ok .decCodeClear := by decide
theorem decode_reseedEnc : decode (.size16 .compress 0b1111111111111111#16) = .ok .reseedEnc := by decide
theorem decode_reseedDec : decode (.size16 .decompress 0b1111111111111111#16) = .ok .reseedDec := by decide
theorem decode_rebuild : decode (.code16 .rebuild 0b0000000100001001#16) = .ok (.rebuild 265#16) := by decide
theorem decode_outCode : decode (.code16 .outCode 0b0000000100000010#16) = .ok (.outCode 258#16) := by decide
/-- L9: a count of 65534 is no `RESEED`. -/
theorem decode_rejects_count : decode (.size16 .compress 65534#16) = .error .countBelowCapacity := by decide
/-- The reading of log 14. -/
theorem decode_table_words : decodeTableWord 8 1 = some (.sysSelect .decompress) ∧
    decodeTableWord 16 0x141 = some (.encByte 0x41#8) ∧ decodeTableWord 16 0xFFFF = some .decCodeClear ∧
    decodeTableWord 8 2 = none := by decide
/-- A word of the table is what the next step runs. -/
theorem withFetchWord_runs : (after (step (State.reset.withFetchWord 16 0x000))).map (·.enc.phase) = some .run ∧
    refusalOf (step (State.reset.withFetchWord 16 0x300)) = some .reservedKind := by decide +kernel

/-! ### One step of each operation -/

/-- Decision D5: 1 selects `DECOMPRESS`. -/
theorem test_sysSelect : (after (exec (.sysSelect .decompress) State.reset)).map (·.mode) = some .decompress := by decide
/-- X5. -/
theorem test_sysSelect_in_run : refusalOf (exec (.sysSelect .decompress) (encAt 65535#16 [] 0)) = some .selectDuringRun := by
  decide
/-- X2, L1. -/
theorem test_encStart : (after (exec .encStart State.reset)).map
    (fun t => (t.enc.phase, t.enc.i, t.enc.size, encLookup 65535#16 0x80#8 t.enc.dict)) =
      some (.run, 65535#16, 256, some 128#16) := by decide +kernel
/-- X4. -/
theorem test_encStart_in_run : refusalOf (exec .encStart (encAt 65535#16 [] 0)) = some (.alreadyRunning .encoder) := by
  decide
/-- E13. -/
theorem test_encByte_miss : (after (exec (.encByte 0x42#8) (encAt 65#16 encBase 1))).map
    (fun t => (t.enc.i, t.enc.size, encLookup 65#16 0x42#8 t.enc.dict, t.output, t.enc.outCodes)) =
      some (66#16, 257, some 256#16, [0x41#8, 0x00#8], 1) := by decide +kernel
/-- E14. -/
theorem test_encByte_hit : (after (exec (.encByte 0x42#8) (encAt 65#16 storeAB 3))).map
    (fun t => (t.enc.i, t.enc.size, t.output)) = some (256#16, 257, []) := by decide +kernel
/-- E2, E17. -/
theorem test_encEnd_flush : (after (exec .encEnd (encAt 255#16 encBase 1))).map
    (fun t => (t.enc.phase, t.output, t.enc.outCodes)) = some (.done, [0xFF#8, 0x00#8], 1) := by decide +kernel
/-- E1. -/
theorem test_encEnd_empty : (after (exec .encEnd (encAt 65535#16 encBase 0))).map
    (fun t => (t.enc.phase, t.output)) = some (.done, []) := by decide +kernel
/-- L3, L4. -/
theorem test_decStart : (after (exec .decStart { State.reset with mode := .decompress })).map
    (fun t => (t.dec.phase, t.dec.i, t.dec.holdValid, decRead 128#16 t.dec.dict, decRead 256#16 t.dec.dict)) =
      some (.run, 65535#16, false, some { pre := 65535#16, byte := 0x80#8 }, none) := by decide +kernel
/-- X3. -/
theorem test_decStart_not_selected : refusalOf (exec .decStart State.reset) = some (.notSelected .decoder) := by decide
/-- W6. -/
theorem test_decIn_first : (after (exec (.decIn 0x41#8) (decAt 65535#16 decBase 0))).map
    (fun t => (t.dec.hold, t.dec.holdValid, t.dec.inPos, t.dec.size)) = some (0x41#8, true, 1, 256) := by decide +kernel
/-- W8: the wire bytes of 65 in `LE`, read in `BE`, are 16640. -/
theorem test_decIn_big_endian :
    (after (exec (.decIn 0x00#8) { decAt 65535#16 decBase 0 with
      byteOrder := .be, dec := { (decAt 65535#16 decBase 0).dec with hold := 0x41#8, holdValid := true, inPos := 1 } })).map
    (fun t => t.dec.fault) = some (.invalidCode 16640#16 256 0) := by decide +kernel
/-- D11. -/
theorem test_decCodeBase : (after (exec (.decCodeBase 66#16) (decAt 65#16 decBase 1))).map
    (fun t => (t.dec.i, t.dec.size, t.dec.dict[256]?, t.output)) =
      some (66#16, 257, some { pre := 65#16, byte := 0x42#8 }, [0x42#8]) := by decide +kernel
/-- F10. -/
theorem test_decCodeBase_transport :
    (after (exec (.decCodeBase 66#16) (withReplies (decAt 65#16 decBase 1) [.fail { value := 7 }]))).map
    (fun t => (t.dec.fault, t.dec.size, t.dec.i, t.dec.codeIdx, t.output)) =
      some (.transport { value := 7 } .output, 257, 65#16, 1, []) := by decide +kernel
/-- D12. -/
theorem test_decCodeLearned_self : (after (exec (.decCodeLearned 256#16) (decAt 65#16 decBase 1))).map
    (fun t => (t.dec.i, t.dec.size, t.dec.dict[256]?, t.output)) =
      some (256#16, 257, some { pre := 65#16, byte := 0x41#8 }, [0x41#8, 0x41#8]) := by decide +kernel
/-- F6. -/
theorem test_decCodeLearned_empty_prefix : (after (exec (.decCodeLearned 256#16) (decAt 65535#16 decBase 0))).map
    (fun t => (t.dec.fault, t.dec.size)) = some (.emptyPrefix 256#16 0, 256) := by decide +kernel
/-- F2. -/
theorem test_decCodeClear : (after (exec .decCodeClear (decAt 65535#16 decBase 0))).map
    (fun t => (t.dec.fault, t.dec.phase, t.dec.size, t.output)) =
      some (.invalidCode 65535#16 256 0, .fault, 256, []) := by decide +kernel
/-- D1. -/
theorem test_decEnd : (after (exec .decEnd (decAt 65535#16 decBase 0))).map (·.dec.phase) = some .done := by
  decide +kernel
/-- F8. -/
theorem test_decEnd_partial :
    (after (exec .decEnd { decAt 65#16 decBase 1 with
      dec := { (decAt 65#16 decBase 1).dec with holdValid := true, inPos := 3 } })).map
    (fun t => (t.dec.fault, t.dec.phase)) = some (.corruptStream 2, .fault) := by decide +kernel
/-- W7. -/
theorem test_t10Reserved : refusalOf (exec .t10Reserved (encAt 65535#16 [] 0)) = some .reservedKind := by decide
/-- L7, on a small store: `RESEED` keeps `enc.i`. -/
theorem test_reseedEnc : (after (exec .reseedEnc (encAt 192#16 storeAB 3))).map
    (fun t => (t.enc.size, t.enc.i, encLookup 0x41#16 0x42#8 t.enc.dict)) = some (256, 192#16, none) := by decide +kernel
/-- L8, on a small store: `RESEED` keeps `dec.i`. -/
theorem test_reseedDec : (after (exec .reseedDec (decAt 192#16 (decFill 3) 5))).map
    (fun t => (t.dec.size, t.dec.i)) = some (256, 192#16) := by decide +kernel
/-- D14: `265 = (256, 'B')`, `256 = (84, 'O')` spell `"TOB"`. -/
theorem test_rebuild :
    (after (exec (.rebuild 265#16) (decAt 65535#16 (decBase ++ { pre := 84#16, byte := 0x4F#8 } ::
      List.replicate 8 { pre := 0#16, byte := 0#8 } ++ [{ pre := 256#16, byte := 0x42#8 }]) 0))).map
    (fun t => t.dec.str) = some [0x54#8, 0x4F#8, 0x42#8] := by decide +kernel
/-- R101: a record that is its own prefix breaks the walk at its own index. -/
theorem test_rebuild_cycle :
    (after (exec (.rebuild 256#16) (decAt 65535#16 (decBase ++ [{ pre := 256#16, byte := 0x42#8 }]) 0))).map
    (fun t => t.dec.fault) = some (.badPrefix 0#16 256#16 0) := by decide +kernel
/-- W2. -/
theorem test_outCode_le : (after (exec (.outCode 258#16) (encAt 65535#16 [] 0))).map (·.output) =
    some [0x02#8, 0x01#8] := by decide
/-- W2. -/
theorem test_outCode_be : (after (exec (.outCode 258#16) { encAt 65535#16 [] 0 with byteOrder := .be })).map (·.output) =
    some [0x01#8, 0x02#8] := by decide
/-- L6. -/
theorem test_dynamicClass : [299#16, 300#16, 301#16, 65535#16].map (dynamicClass · 300) =
    [.known, .self, .invalid, .invalid] := by decide
/-- R120. -/
theorem test_fault_kinds : [FaultRecord.none, .invalidCode 0#16 0 0, .corruptStream 0, .transport { value := 0 } .input,
    .emptyPrefix 0#16 0, .badPrefix 0#16 0#16 0].map FaultRecord.kind = [0, 1, 2, 3, 4, 5] := by decide

/-! ### Stores and states for the witnesses -/

@[simp] theorem length_encFill (n : Nat) : (encFill n).length = 256 + n := by simp [encFill]
@[simp] theorem length_decFill (n : Nat) : (decFill n).length = 256 + n := by simp [decFill]

theorem encFill_succ (n : Nat) : encFill (n + 1) = encInsert (BitVec.ofNat 16 ((256 + n) / 256))
    (BitVec.ofNat 8 (256 + n)) (nextCode (encFill n).length) (encFill n) := by
  simp [encFill, encInsert, nextCode, List.range_succ]

theorem decFill_succ (n : Nat) : decFill (n + 1) = decAppend 0#16 0#8 (decFill n) := by
  simp [decFill, decAppend, List.replicate_succ']

/-- No earlier pair has the key of the pair `n`. -/
theorem encFill_absent {n : Nat} (hn : n < 65279) : encLookup (BitVec.ofNat 16 ((256 + n) / 256))
    (BitVec.ofNat 8 (256 + n)) (encFill n) = none := by
  rw [encLookup_none]
  intro e he ⟨hp, hb⟩
  simp only [encFill, encBase, List.mem_append, List.mem_map, List.mem_range] at he
  have hp' := congrArg BitVec.toNat hp
  have hb' := congrArg BitVec.toNat hb
  rcases he with ⟨b, -, rfl⟩ | ⟨j, hj, rfl⟩
  · simp at hp'
    omega
  · simp at hp' hb'
    omega

theorem encFill_ok (n : Nat) (hn : n ≤ 65279) : EncStoreOk (encFill n) := by
  induction n with
  | zero => simpa [encFill] using EncStoreOk.ofBase
  | succ n ih =>
    rw [encFill_succ]
    refine (ih (by omega)).insert (encFill_absent (by omega)) ?_ (by simp; omega)
    simp
    omega

theorem decFill_ok (n : Nat) (hn : n ≤ 65279) : DecStoreOk (decFill n) := by
  induction n with
  | zero => simpa [decFill] using DecStoreOk.ofBase
  | succ n ih =>
    rw [decFill_succ]
    exact (ih (by omega)).append (by decide) (fun _ => by simp) (by simp; omega)

/-- An encoder in `RUN` meets the invariant. -/
theorem encAt_inv {i : Code} {d : List EncEntry} {n : Nat} (hd : EncStoreOk d)
    (hi : EncMatchOk (encAt i d n).enc) : Inv (encAt i d n) where
  encFault := by simp [encAt]
  decFault := by simp [encAt, State.reset, Dec.reset]
  encSelected := fun _ => rfl
  decSelected := fun h => by simp [encAt, State.reset, Dec.reset] at h
  encStore := fun _ => hd
  decStore := fun h => by simp [encAt, State.reset, Dec.reset] at h
  encMatch := fun _ => hi
  decPrev := fun h => by simp [encAt, State.reset, Dec.reset] at h

/-- A decoder in `RUN` meets the invariant. -/
theorem decAt_inv {i : Code} {d : List DecRecord} {n : Nat} (hd : DecStoreOk d)
    (hi : DecPrevOk (decAt i d n).dec) : Inv (decAt i d n) where
  encFault := by simp [decAt, State.reset, Enc.reset]
  decFault := by simp [decAt, Dec.reset]
  encSelected := fun h => by simp [decAt, State.reset, Enc.reset] at h
  decSelected := fun _ => rfl
  encStore := fun h => by simp [decAt, State.reset, Enc.reset] at h
  decStore := fun _ => hd
  encMatch := fun h => by simp [decAt, State.reset, Enc.reset] at h
  decPrev := fun _ => hi

theorem encStart_inv : Inv (encAt 65535#16 encBase 0) :=
  encAt_inv EncStoreOk.ofBase ⟨by simp [encAt], by simp [encAt], by simp [encAt, Enc.size]⟩
theorem encMid_inv : Inv (encAt 65#16 encBase 1) :=
  encAt_inv EncStoreOk.ofBase ⟨by simp [encAt]; decide, by simp [encAt, Enc.size], by simp [encAt, Enc.size]⟩
theorem encFull_inv : Inv (encAt 192#16 (encFill 65279) 65280) :=
  encAt_inv (encFill_ok _ (by omega))
    ⟨by simp [encAt]; decide, by simp [encAt, Enc.size], by simp [encAt]⟩
theorem decStart_inv : Inv (decAt 65535#16 decBase 0) :=
  decAt_inv DecStoreOk.ofBase ⟨by simp [decAt], by simp [decAt], by simp [decAt, Dec.reset]⟩
theorem decStart_epoch : EpochInv (decAt 65535#16 decBase 0) :=
  ⟨fun h => by simp [decAt, State.reset, Enc.reset] at h, fun _ => .inl ⟨rfl, by simp [decAt, Dec.size]⟩⟩
theorem decMid_inv : Inv (decAt 65#16 decBase 1) :=
  decAt_inv DecStoreOk.ofBase ⟨by simp [decAt]; decide, by simp [decAt, Dec.size], by simp [decAt, Dec.reset]⟩
theorem decFull_inv : Inv (decAt 192#16 (decFill 65279) 65280) :=
  decAt_inv (decFill_ok _ (by omega)) ⟨by simp [decAt]; decide, by simp [decAt, Dec.size], by simp [decAt, Dec.reset]⟩

/-- E15: at capacity `ENC.BYTE 0xA1` reseeds, misses, inserts `(192, 0xA1)` as 256 and emits 192. -/
theorem test_encByte_capacity : (after (exec (.encByte 0xA1#8) (encAt 192#16 (encFill 65279) 65280))).map
    (fun t => (t.enc.i, t.enc.size, encLookup 192#16 0xA1#8 t.enc.dict, t.output)) =
      some (161#16, 257, some 256#16, [0xC0#8, 0x00#8]) := by
  have h : exec (.encByte 0xA1#8) (encAt 192#16 (encFill 65279) 65280) =
      exec (.encByte 0xA1#8) (encAt 192#16 encBase 65280) := by
    simp only [exec, execEncByte]
    rw [whenRunning_eq (s := encAt 192#16 (encFill 65279) 65280) _ (by decide) rfl,
      whenRunning_eq (s := encAt 192#16 encBase 65280) _ (by decide) rfl,
      encCapacityCheck_full (by simp [encAt, Enc.size]),
      encCapacityCheck_below (by simp [encAt, Enc.size])]
    rfl
  rw [h]
  decide +kernel

/-- D13: at capacity `DEC.CODE 161` reseeds and appends `(192, 0xA1)` at 256. -/
theorem test_decCode_capacity : (after (exec (.decCodeBase 161#16) (decAt 192#16 (decFill 65279) 65280))).map
    (fun t => (t.dec.i, t.dec.size, t.dec.dict[256]?, t.output)) =
      some (161#16, 257, some { pre := 192#16, byte := 0xA1#8 }, [0xA1#8]) := by
  have h : exec (.decCodeBase 161#16) (decAt 192#16 (decFill 65279) 65280) =
      exec (.decCodeBase 161#16) (decAt 192#16 decBase 65280) := by
    simp only [exec, execDecCodeBase]
    rw [whenRunning_eq (s := decAt 192#16 (decFill 65279) 65280) _ (by decide) rfl,
      whenRunning_eq (s := decAt 192#16 decBase 65280) _ (by decide) rfl]
    unfold decCodeStep
    rw [decCapacityCheck_full (by simp [decAt, Dec.size, State.withDec]),
      decCapacityCheck_below (by simp [decAt, Dec.size, State.withDec])]
    rfl
  rw [h]
  decide +kernel

/-! ### Witnesses: states and operands that meet the hypotheses of each statement -/

/-- A decoder that holds the first byte of a code. -/
def decHolding : State :=
  { decAt 65#16 decBase 1 with dec := { (decAt 65#16 decBase 1).dec with hold := 0x42#8, holdValid := true, inPos := 3 } }

/-- An encoder that has faulted, a `MODE1` word ready. -/
def encFaulted : State :=
  withEvent { encAt 65#16 encBase 1 with
    enc := { (encAt 65#16 encBase 1).enc with phase := .fault, fault := .transport { value := 1 } .input } } (.select 0#1)

/-- A decoder that has faulted, a `MODE1` word ready. -/
def decFaulted : State :=
  withEvent { decAt 65#16 decBase 1 with
    dec := { (decAt 65#16 decBase 1).dec with phase := .fault, fault := .corruptStream 2 } } (.select 1#1)

theorem encFaulted_inv : Inv encFaulted where
  encFault := by simp [encFaulted, withEvent]
  decFault := by simp [encFaulted, withEvent, encAt, State.reset, Dec.reset]
  encSelected := fun h => by simp [encFaulted, withEvent] at h
  decSelected := fun h => by simp [encFaulted, withEvent, encAt, State.reset, Dec.reset] at h
  encStore := fun _ => EncStoreOk.ofBase
  decStore := fun h => by simp [encFaulted, withEvent, encAt, State.reset, Dec.reset] at h
  encMatch := fun h => by simp [encFaulted, withEvent] at h
  decPrev := fun h => by simp [encFaulted, withEvent, encAt, State.reset, Dec.reset] at h

theorem decFaulted_inv : Inv decFaulted where
  encFault := by simp [decFaulted, withEvent, decAt, State.reset, Enc.reset]
  decFault := by simp [decFaulted, withEvent]
  encSelected := fun h => by simp [decFaulted, withEvent, decAt, State.reset, Enc.reset] at h
  decSelected := fun h => by simp [decFaulted, withEvent] at h
  encStore := fun h => by simp [decFaulted, withEvent, decAt, State.reset, Enc.reset] at h
  decStore := fun _ => DecStoreOk.ofBase
  encMatch := fun h => by simp [decFaulted, withEvent, decAt, State.reset, Enc.reset] at h
  decPrev := fun h => by simp [decFaulted, withEvent] at h

/-- A next state with a property, from the evaluated answer. -/
theorem nextWith {r : Result} {p : State → Bool} (h : (after r).map p = some true) :
    ∃ t, r = .next t ∧ p t = true := by
  cases r with
  | next t => exact ⟨t, rfl, by simpa [after] using h⟩
  | fault _ => simp [after] at h
  | refused _ => simp [after] at h

theorem nextOf {r : Result} (h : (after r).isSome = true) : ∃ t, r = .next t := by
  cases r with
  | next t => exact ⟨t, rfl⟩
  | fault _ => simp [after] at h
  | refused _ => simp [after] at h

/-- An exhausted list of answers accepts. -/
theorem accepts {s : State} {n : Nat} (h : s.sink = []) : SinkAccepts n s := by simp [SinkAccepts, h]

theorem fails_first (s : State) (e : HostError) : SinkFailsAfter 0 e (withReplies s [.fail e]) :=
  ⟨by simp [SinkAccepts], rfl⟩

theorem fails_second (s : State) (e : HostError) : SinkFailsAfter 1 e (withReplies s [.accept, .fail e]) :=
  ⟨by simp [SinkAccepts, withReplies], rfl⟩

/-- A state that meets the invariant still meets it with other channels. -/
theorem inv_channels {s : State} (h : Inv s) (input : List HostEvent) (sink : List SinkReply) (output : List Byte) :
    Inv { s with input := input, sink := sink, output := output } :=
  ⟨h.encFault, h.decFault, h.encSelected, h.decSelected, h.encStore, h.decStore, h.encMatch, h.decPrev⟩

theorem witness_StepRunsTheDecodedOperation :
    (withEvent State.reset (.select 1#1)).input = [.select 1#1] ∧ decode (.mode1 1#1) = .ok (.sysSelect .decompress) ∧
    (withEvent State.reset (.transaction 0x141#10)).input = [.transaction 0x141#10] ∧
    decode (.t10 State.reset.mode 0x141#10) = .ok (.encByte 0x41#8) ∧
    (withEvent (decAt 65#16 decBase 1) (.code 256#16)).input = [.code 256#16] ∧
    (decAt 65#16 decBase 1).dec.holdValid = false ∧
    decode (.code16 .decCode 256#16) = .ok (.decCodeLearned 256#16) := by
  exact ⟨rfl, rfl, rfl, rfl, rfl, rfl, rfl⟩

theorem witness_ReadFailureRaisesTransport : ∀ e,
    ((withEvent (encAt 65#16 encBase 1) (.readFailure e)).input = [.readFailure e] ∧
      (encAt 65#16 encBase 1).mode = .compress ∧ (encAt 65#16 encBase 1).enc.phase = .run) ∧
    ((withEvent (decAt 65#16 decBase 1) (.readFailure e)).input = [.readFailure e] ∧
      (decAt 65#16 decBase 1).mode = .decompress ∧ (decAt 65#16 decBase 1).dec.phase = .run) ∧
    (({ encFaulted with input := [.readFailure e] } : State).input = [.readFailure e] ∧
      encFaulted.mode = .compress ∧ encFaulted.enc.phase ≠ .run) ∧
    (({ decFaulted with input := [.readFailure e] } : State).input = [.readFailure e] ∧
      decFaulted.mode = .decompress ∧ decFaulted.dec.phase ≠ .run) :=
  fun _ => ⟨⟨rfl, rfl, rfl⟩, ⟨rfl, rfl, rfl⟩, ⟨rfl, rfl, nofun⟩, rfl, rfl, nofun⟩

theorem witness_WaitingCoreHasNoStep : State.reset.input = [] ∧
    (withEvent decHolding (.code 256#16)).input = [.code 256#16] ∧ decHolding.dec.holdValid = true := ⟨rfl, rfl, rfl⟩

theorem witness_DecodeInvertsEncode : WellFormed (.decCodeBase 0#16) = true ∧ WellFormed (.decCodeBase 255#16) = true ∧
    WellFormed (.decCodeLearned 256#16) = true ∧ WellFormed (.decCodeLearned 65534#16) = true ∧
    WellFormed (.encByte 0xFF#8) = true := by decide

theorem witness_DecodedOperationsAreWellFormed :
    decode (.code16 .decCode 255#16) = .ok (.decCodeBase 255#16) ∧
    decode (.code16 .decCode 65534#16) = .ok (.decCodeLearned 65534#16) := by decide

theorem witness_CodeClassesPartitionTheCodeSpace : staticClass 0#16 = .base ∧ staticClass 255#16 = .base ∧
    staticClass 256#16 = .learned ∧ staticClass 65534#16 = .learned ∧ staticClass 65535#16 = .clear ∧
    dynamicClass 255#16 256 = .known ∧ dynamicClass 65534#16 65534 = .self ∧ dynamicClass 65535#16 65534 = .invalid := by
  decide

theorem witness_SelectSetsTheModeBetweenRuns : State.reset.enc.phase ≠ .run ∧ State.reset.dec.phase ≠ .run ∧
    (encAt 65#16 encBase 1).enc.phase = .run ∧ (decAt 65#16 decBase 1).dec.phase = .run := by decide +kernel

theorem witness_DisabledOperationsAreRefused : IsDecCode (.decCodeBase 255#16) 255#16 ∧
    IsDecCode (.decCodeLearned 256#16) 256#16 ∧ (decAt 65#16 decBase 1).mode ≠ .compress ∧
    State.reset.enc.phase ≠ .run ∧ (encAt 65#16 encBase 1).enc.phase = .run ∧ State.reset.mode ≠ .decompress ∧
    State.reset.dec.phase ≠ .run ∧ (decAt 65#16 decBase 1).dec.phase = .run :=
  ⟨.inl rfl, .inr rfl, by decide, by decide, rfl, by decide, by decide, rfl⟩

theorem witness_ReservedKindIsRefused : (withEvent State.reset (.transaction (t10Word 0b11#2 0xFF#8))).input =
    [.transaction (t10Word 0b11#2 0xFF#8)] := rfl

/-- For each machine: its `START`, another word, a whole code and a read failure, in `FAULT`. -/
theorem witness_OnlyStartLeavesFault :
    (encFaulted.mode = .compress ∧ encFaulted.enc.phase = .fault) ∧
    (decFaulted.mode = .decompress ∧ decFaulted.dec.phase = .fault) ∧
    decode (.t10 .compress 0x0FF#10) = .ok .encStart ∧ decode (.t10 .compress 0x100#10) ≠ .ok .encStart ∧
    decode (.t10 .decompress 0x0FF#10) = .ok .decStart ∧ decode (.t10 .decompress 0x100#10) ≠ .ok .decStart ∧
    ∀ ev : HostEvent, ({ encFaulted with input := [ev] } : State).input = [ev] ∧
      ({ decFaulted with input := [ev] } : State).input = [ev] :=
  ⟨⟨rfl, rfl⟩, ⟨rfl, rfl⟩, by decide, by decide, by decide, by decide, fun _ => ⟨rfl, rfl⟩⟩

/-- A step, for the statements about every step: `ENC.START` and `DEC.START` after power-on. -/
theorem witness_step : (∃ t, step (withEvent State.reset (.transaction 0x000#10)) = .next t ∧ t.enc.phase = .run) ∧
    (∃ t, step (withEvent { State.reset with mode := .decompress } (.transaction 0x000#10)) = .next t ∧
      t.dec.phase = .run) := ⟨⟨_, rfl, rfl⟩, _, rfl, rfl⟩

theorem witness_PhasesMoveOnlyAsTheTableSays :
    ∃ t, step (withEvent (encAt 65535#16 encBase 0) (.transaction 0x200#10)) = .next t ∧ t.enc.phase = .done :=
  ⟨_, rfl, rfl⟩

theorem witness_FaultIsKeptUntilStart :
    (Inv encFaulted ∧ (∃ t, step encFaulted = .next t) ∧ encFaulted.enc.fault ≠ .none) ∧
    (Inv decFaulted ∧ (∃ t, step decFaulted = .next t) ∧ decFaulted.dec.fault ≠ .none) :=
  ⟨⟨encFaulted_inv, ⟨_, rfl⟩, by simp [encFaulted, withEvent]⟩,
    decFaulted_inv, ⟨_, rfl⟩, by simp [decFaulted, withEvent]⟩

theorem witness_ConfigurationIsFixedDuringARun :
    ∃ t, step (withEvent State.reset (.select 1#1)) = .next t ∧ t.mode ≠ State.reset.mode := ⟨_, rfl, by decide⟩

theorem witness_OutputIsNeverTakenBack :
    ∃ t, step (withEvent (encAt 65#16 encBase 1) (.transaction 0x200#10)) = .next t ∧ t.output = [0x41#8, 0x00#8] :=
  ⟨_, rfl, rfl⟩

theorem witness_MachinesShareNoState : isEncoderOp (.encByte 0#8) = true ∧ isDecoderOp (.decIn 0#8) = true := by decide

theorem witness_EncStartOpensAFreshRun : State.reset.mode = .compress ∧ State.reset.enc.phase ≠ .run ∧
    (decAt 65#16 decBase 1).mode ≠ .compress ∧ (encAt 65#16 encBase 1).enc.phase = .run :=
  ⟨rfl, by decide, by decide, rfl⟩

/-- E14 and E12. -/
theorem witness_EncByteHitExtendsTheMatch :
    ((encAt 65#16 storeAB 3).mode = .compress ∧ (encAt 65#16 storeAB 3).enc.phase = .run ∧
      (encAt 65#16 storeAB 3).enc.size ≠ 65535 ∧ encLookup 65#16 0x42#8 storeAB = some 256#16) ∧
    ((encAt 65535#16 encBase 0).enc.size ≠ 65535 ∧ Inv (encAt 65535#16 encBase 0)) :=
  ⟨⟨rfl, rfl, by simp [encAt, storeAB, Enc.size], by decide +kernel⟩, by simp [encAt, Enc.size], encStart_inv⟩

/-- E13, with the invariant, and a store without base keys for the clause with `enc.i = CLEAR`. -/
theorem witness_EncByteMissInsertsAndEmits :
    ((encAt 65#16 encBase 1).mode = .compress ∧ (encAt 65#16 encBase 1).enc.phase = .run ∧
      (encAt 65#16 encBase 1).enc.size ≠ 65535 ∧ encLookup 65#16 0x42#8 encBase = none ∧
      SinkAccepts 2 (encAt 65#16 encBase 1) ∧ Inv (encAt 65#16 encBase 1)) ∧
    ((encAt 65535#16 [] 0).enc.size ≠ 65535 ∧ encLookup 65535#16 0x42#8 [] = none) :=
  ⟨⟨rfl, rfl, by simp [encAt, Enc.size], by decide +kernel, accepts rfl, encMid_inv⟩,
    by simp [encAt, Enc.size], rfl⟩

/-- E15, E17. -/
theorem witness_EncByteReseedsAtCapacity : (encAt 192#16 (encFill 65279) 65280).enc.size = 65535 ∧
    Inv (encAt 192#16 (encFill 65279) 65280) ∧ (encAt 192#16 (encFill 65279) 65280).mode = .compress ∧
    (encAt 192#16 (encFill 65279) 65280).enc.phase = .run ∧ SinkAccepts 2 (encAt 192#16 (encFill 65279) 65280) ∧
    ∃ t, exec .encEnd (encAt 192#16 (encFill 65279) 65280) = .next t :=
  ⟨by simp [encAt, Enc.size], encFull_inv, rfl, rfl, accepts rfl, _, rfl⟩

/-- F11. -/
theorem witness_EncByteTransportKeepsTheInsertion : ∀ e : HostError,
    encLookup 65#16 0x42#8 encBase = none ∧ (encAt 65#16 encBase 1).enc.size ≠ 65535 ∧
    SinkFailsAfter 0 e (withReplies (encAt 65#16 encBase 1) [.fail e]) ∧
    SinkFailsAfter 1 e (withReplies (encAt 65#16 encBase 1) [.accept, .fail e]) :=
  fun _ => ⟨by decide +kernel, by simp [encAt, Enc.size], fails_first _ _, fails_second _ _⟩

theorem witness_EncByteAcceptsEveryByte : Inv (encAt 65#16 encBase 1) ∧ (encAt 65#16 encBase 1).mode = .compress ∧
    (encAt 65#16 encBase 1).enc.phase = .run ∧ SinkAccepts 2 (encAt 65#16 encBase 1) :=
  ⟨encMid_inv, rfl, rfl, accepts rfl⟩

theorem witness_BaseKeysAreAlwaysPresent : (Inv (encAt 65535#16 encBase 0) ∧ (encAt 65535#16 encBase 0).enc.phase = .run) ∧
    (Inv (encAt 192#16 (encFill 65279) 65280) ∧ (encAt 192#16 (encFill 65279) 65280).enc.phase = .run) :=
  ⟨⟨encStart_inv, rfl⟩, encFull_inv, rfl⟩

theorem witness_EncEndFlushesTheLastMatch : ∀ e : HostError,
    ((encAt 65535#16 encBase 0).mode = .compress ∧ (encAt 65535#16 encBase 0).enc.phase = .run ∧
      (encAt 65535#16 encBase 0).enc.i = 65535#16) ∧
    ((encAt 65#16 encBase 1).enc.i ≠ 65535#16 ∧ SinkAccepts 2 (encAt 65#16 encBase 1) ∧
      SinkFailsAfter 0 e (withReplies (encAt 65#16 encBase 1) [.fail e]) ∧
      SinkFailsAfter 1 e (withReplies (encAt 65#16 encBase 1) [.accept, .fail e])) ∧
    State.reset.enc.phase ≠ .run ∧ Inv (encAt 65#16 encBase 1) :=
  fun _ => ⟨⟨rfl, rfl, rfl⟩, ⟨by simp [encAt], accepts rfl, fails_first _ _,
    fails_second _ _⟩, by decide, encMid_inv⟩

/-- W2, W3. -/
theorem witness_OutCodeWritesTwoWireBytes : ∀ e : HostError,
    ((0x02#8).toNat = (258#16).toNat % 256 ∧ (0x01#8).toNat = (258#16).toNat / 256 ∧
      (0xFE#8).toNat = (65534#16).toNat % 256 ∧ (0xFF#8).toNat = (65534#16).toNat / 256) ∧
    State.reset.byteOrder = .le ∧ SinkAccepts 2 State.reset ∧
    ({ State.reset with byteOrder := .be } : State).byteOrder = .be ∧
    SinkFailsAfter 0 e (withReplies State.reset [.fail e]) ∧
    SinkFailsAfter 1 e (withReplies State.reset [.accept, .fail e]) :=
  fun _ => ⟨by decide, rfl, accepts rfl, rfl, fails_first _ _, fails_second _ _⟩

theorem witness_StoresAreAppendOnlyBetweenResets :
    ((∃ t, step (withEvent (encAt 65#16 encBase 1) (.transaction 0x142#10)) = .next t) ∧
      (encAt 65#16 encBase 1).enc.phase = .run ∧ (encAt 65#16 encBase 1).enc.size ≠ 65535 ∧
      encLookup 65535#16 0x41#8 encBase = some 65#16) ∧
    ((∃ t, step (withEvent (decAt 65#16 decBase 1) (.code 66#16)) = .next t) ∧
      (decAt 65#16 decBase 1).dec.phase = .run ∧ (decAt 65#16 decBase 1).dec.size ≠ 65535 ∧
      decBase[255]? = some { pre := 65535#16, byte := 0xFF#8 }) :=
  ⟨⟨nextOf (by decide +kernel), rfl, by simp [encAt, Enc.size], by decide +kernel⟩,
    nextOf (by decide +kernel), rfl, by simp [decAt, Dec.size], by decide +kernel⟩

theorem witness_CanonicalEncoderStoresAreEqual : Memory.wf encBase ∧ Memory.wf (encFill 65279) :=
  ⟨encBase_wf, (encFill_ok _ (by omega)).wf⟩

/-- A base code spells its own byte in the base records. -/
theorem decBase_spells {n : Nat} (h : n < 256) : Spells decBase (BitVec.ofNat 16 n) [BitVec.ofNat 8 n] := by
  refine .record (t := []) ?_ (r := { pre := Config.clear, byte := BitVec.ofNat 8 n }) ?_ .clear
  · intro he
    have := congrArg BitVec.toNat he
    simp at this
    omega
  · rw [BitVec.toNat_ofNat, Nat.mod_eq_of_lt (by omega)]
    exact decBase_get h

theorem witness_RebuildAnswersTheStringOfTheCode : Spells (decAt 65#16 decBase 1).dec.dict 0#16 [0x00#8] ∧
    Spells (decAt 65#16 decBase 1).dec.dict 255#16 [0xFF#8] ∧ Spells (decAt 65#16 decBase 1).dec.dict 65535#16 [] :=
  ⟨decBase_spells (n := 0) (by omega), decBase_spells (n := 255) (by omega), .clear⟩

/-- A store whose record 256 is its own prefix, and one whose record 256 points outside the store. -/
def cyclic : List DecRecord := decBase ++ [{ pre := 256#16, byte := 0#8 }]
def dangling : List DecRecord := decBase ++ [{ pre := 300#16, byte := 0#8 }]

theorem cyclic_spells_nothing : ∀ t, ¬Spells cyclic 256#16 t := by
  have key : ∀ x t, Spells cyclic x t → x ≠ 256#16 := by
    intro x t h
    induction h with
    | clear => decide
    | @record x r t hx hr ht ih =>
      rintro rfl
      have : cyclic[256]? = some { pre := 256#16, byte := 0#8 } := by simp [cyclic]
      rw [show (256#16).toNat = 256 from rfl, this] at hr
      cases hr
      exact ih rfl
  exact fun t h => key _ t h rfl

theorem dangling_reaches : ChainReaches dangling 256#16 1 300#16 := by
  have : dangling[256]? = some { pre := 300#16, byte := 0#8 } := by simp [dangling]
  exact .follow (by decide) this .start

/-- R101, R106: the record at index 256 whose prefix is 256 repeats for ever. -/
theorem cyclic_reaches : ∀ steps, ChainReaches cyclic 256#16 steps 256#16
  | 0 => .start
  | steps + 1 => .follow (r := { pre := 256#16, byte := 0#8 }) (by decide) (by simp [cyclic]) (cyclic_reaches steps)

theorem witness_RebuildRaisesBadPrefixOnBrokenChains :
    (ChainReaches (decAt 65#16 dangling 1).dec.dict 256#16 1 300#16 ∧ 300#16 ≠ 65535#16 ∧
      (decAt 65#16 dangling 1).dec.size ≤ (300#16).toNat) ∧
    (ChainReaches (decAt 65#16 decBase 1).dec.dict 256#16 0 256#16 ∧
      (decAt 65#16 decBase 1).dec.size ≤ (256#16).toNat) ∧
    (ChainReaches (decAt 65#16 cyclic 1).dec.dict 256#16 257 256#16 ∧ 256#16 ≠ 65535#16 ∧
      257 = (decAt 65#16 cyclic 1).dec.size) ∧
    ∀ t, ¬Spells (decAt 65#16 cyclic 1).dec.dict 256#16 t :=
  ⟨⟨dangling_reaches, by decide, by simp [decAt, dangling, Dec.size]⟩,
    ⟨.start, by simp [decAt, Dec.size]⟩,
    ⟨cyclic_reaches 257, by decide, by simp [decAt, cyclic, Dec.size]⟩, cyclic_spells_nothing⟩

theorem witness_ClosedStoresSpellEveryCode : DecStoreOk (decFill 65279) ∧
    (∀ (n : Nat) (r : DecRecord), 256 ≤ n → (decFill 65279)[n]? = some r → r.pre.toNat < n) ∧
    (65534#16).toNat < (decFill 65279).length := by
  refine ⟨decFill_ok _ (by omega), ?_, by simp⟩
  intro n r hn hr
  rw [decFill, List.getElem?_append_right (by simpa using hn)] at hr
  have := List.eq_of_mem_replicate (List.mem_of_getElem? hr)
  subst this
  simp
  omega

theorem witness_DecStartOpensAFreshRun : (decFaulted.mode = .decompress ∧ decFaulted.dec.phase ≠ .run) ∧
    State.reset.mode ≠ .decompress ∧ (decAt 65#16 decBase 1).dec.phase = .run :=
  ⟨⟨rfl, by simp [decFaulted, withEvent]⟩, by decide, rfl⟩

theorem witness_StartForgetsEarlierRuns :
    (State.reset.mode = .compress ∧ encFaulted.mode = .compress ∧ State.reset.enc.phase ≠ .run ∧
      encFaulted.enc.phase ≠ .run) ∧
    (decFaulted.mode = .decompress ∧ decFaulted.dec.phase ≠ .run) :=
  ⟨⟨rfl, rfl, by decide, by simp [encFaulted, withEvent]⟩, rfl, by simp [decFaulted, withEvent]⟩

/-- W5: `<02 01>` is 258 in `LE` and 513 in `BE`. -/
theorem witness_DecInAssemblesCodes :
    ((decAt 65#16 decBase 1).mode = .decompress ∧ (decAt 65#16 decBase 1).dec.phase = .run ∧
      (decAt 65#16 decBase 1).dec.holdValid = false) ∧
    (decHolding.dec.holdValid = true ∧ decHolding.byteOrder = .le ∧
      (322#16).toNat = decHolding.dec.hold.toNat + 256 * (0x01#8).toNat ∧
      decode (.code16 .decCode 322#16) = .ok (.decCodeLearned 322#16) ∧
      (16897#16).toNat = 256 * decHolding.dec.hold.toNat + (0x01#8).toNat) ∧
    State.reset.mode ≠ .decompress :=
  ⟨⟨rfl, rfl, rfl⟩, ⟨rfl, rfl, by decide, by decide, by decide⟩, by decide⟩

/-- D2 and D11. -/
theorem witness_DecCodeKnownEmitsAndAppends :
    (IsDecCode (.decCodeBase 65#16) 65#16 ∧ (decAt 65535#16 decBase 0).mode = .decompress ∧
      (decAt 65535#16 decBase 0).dec.phase = .run ∧ (decAt 65535#16 decBase 0).dec.size ≠ 65535 ∧
      (65#16).toNat < (decAt 65535#16 decBase 0).dec.size ∧ Spells decBase 65#16 [0x41#8] ∧
      SinkAccepts 1 (decAt 65535#16 decBase 0) ∧ (decAt 65535#16 decBase 0).dec.i = 65535#16 ∧
      Inv (decAt 65535#16 decBase 0) ∧ EpochInv (decAt 65535#16 decBase 0)) ∧
    ((255#16).toNat < (decAt 65#16 decBase 1).dec.size ∧ Spells decBase 255#16 [0xFF#8] ∧
      SinkAccepts 1 (decAt 65#16 decBase 1) ∧ (decAt 65#16 decBase 1).dec.i ≠ 65535#16) :=
  ⟨⟨.inl rfl, rfl, rfl, by simp [decAt, Dec.size], by simp [decAt, Dec.size], decBase_spells (n := 65) (by omega),
    accepts rfl, rfl, decStart_inv, decStart_epoch⟩,
    by simp [decAt, Dec.size], decBase_spells (n := 255) (by omega), accepts rfl, by simp [decAt]⟩

theorem witness_BaseCodesAlwaysDecode :
    (Inv (decAt 65535#16 decBase 0) ∧ (decAt 65535#16 decBase 0).mode = .decompress ∧
      (decAt 65535#16 decBase 0).dec.phase = .run ∧ (255#16).toNat < 256 ∧ SinkAccepts 1 (decAt 65535#16 decBase 0)) ∧
    (Inv (decAt 192#16 (decFill 65279) 65280) ∧ (decAt 192#16 (decFill 65279) 65280).mode = .decompress ∧
      (decAt 192#16 (decFill 65279) 65280).dec.phase = .run ∧ (161#16).toNat < 256 ∧
      SinkAccepts 1 (decAt 192#16 (decFill 65279) 65280)) :=
  ⟨⟨decStart_inv, rfl, rfl, by decide, accepts rfl⟩,
    decFull_inv, rfl, rfl, by decide, accepts rfl⟩

/-- D12, D15, and a previous code outside the store (M vectors). -/
theorem witness_DecCodeSelfAppendsThenEmits :
    (IsDecCode (.decCodeLearned 256#16) 256#16 ∧ (decAt 65#16 decBase 1).dec.size ≠ 65535 ∧
      (256#16).toNat = (decAt 65#16 decBase 1).dec.size ∧ (decAt 65#16 decBase 1).dec.i ≠ 65535#16 ∧
      Spells (decAt 65#16 decBase 1).dec.dict (decAt 65#16 decBase 1).dec.i [0x41#8] ∧
      SinkAccepts 2 (decAt 65#16 decBase 1)) ∧
    ((decAt 300#16 decBase 1).dec.size ≠ 65535 ∧ (256#16).toNat = (decAt 300#16 decBase 1).dec.size ∧
      (decAt 300#16 decBase 1).dec.size ≤ (decAt 300#16 decBase 1).dec.i.toNat) ∧
    (65534#16).toNat = (decAt 0#16 (decFill 65278) 65279).dec.size :=
  ⟨⟨.inr rfl, by simp [decAt, Dec.size], by simp [decAt, Dec.size], by simp [decAt], decBase_spells (n := 65) (by omega),
    accepts rfl⟩,
    ⟨by simp [decAt, Dec.size], by simp [decAt, Dec.size], by simp [decAt, Dec.size]⟩, by simp [decAt, Dec.size]⟩

/-- F6. -/
theorem witness_DecCodeSelfWithoutPreviousRaises : IsDecCode (.decCodeLearned 256#16) 256#16 ∧
    (decAt 65535#16 decBase 0).mode = .decompress ∧ (decAt 65535#16 decBase 0).dec.phase = .run ∧
    (decAt 65535#16 decBase 0).dec.size ≠ 65535 ∧ (256#16).toNat = (decAt 65535#16 decBase 0).dec.size ∧
    (decAt 65535#16 decBase 0).dec.i = 65535#16 ∧ Inv (decAt 65535#16 decBase 0) ∧
    EpochInv (decAt 65535#16 decBase 0) :=
  ⟨.inr rfl, rfl, rfl, by simp [decAt, Dec.size], by simp [decAt, Dec.size], rfl, decStart_inv, decStart_epoch⟩

/-- F1, F2. -/
theorem witness_DecCodeAboveSizeRaisesInvalidCode :
    ((decAt 65#16 decBase 1).mode = .decompress ∧ (decAt 65#16 decBase 1).dec.phase = .run ∧
      IsDecCode (.decCodeLearned 257#16) 257#16 ∧ (decAt 65#16 decBase 1).dec.size ≠ 65535 ∧
      (decAt 65#16 decBase 1).dec.size < (257#16).toNat) ∧
    (decAt 65#16 decBase 1).dec.size < 65535 ∧ (decAt 192#16 (decFill 65279) 65280).dec.size = 65535 :=
  ⟨⟨rfl, rfl, .inr rfl, by simp [decAt, Dec.size], by simp [decAt, Dec.size]⟩, by simp [decAt, Dec.size],
    by simp [decAt, Dec.size]⟩

/-- R106: the code 256 after a reseed with a previous code of 300, and the code that follows it; then the
chain that repeats, as a KNOWN code (vector M2) and as the previous code of a SELF step. -/
theorem witness_DecCodeBrokenChainRaisesBadPrefix :
    (300#16 ≠ 65535#16 ∧ (decAt 65#16 dangling 2).dec.size ≤ (300#16).toNat ∧
      (256#16).toNat < (decAt 65#16 dangling 2).dec.size ∧
      ChainReaches (decAt 65#16 dangling 2).dec.dict 256#16 1 300#16) ∧
    ((decAt 300#16 decBase 1).dec.size ≤ (300#16).toNat ∧ (256#16).toNat = (decAt 300#16 decBase 1).dec.size ∧
      (decAt 300#16 decBase 1).dec.i ≠ 65535#16 ∧
      ChainReaches (decAt 300#16 decBase 1).dec.dict (decAt 300#16 decBase 1).dec.i 0 300#16) ∧
    ((256#16).toNat < (decAt 65#16 cyclic 2).dec.size ∧ 257 = (decAt 65#16 cyclic 2).dec.size ∧
      ChainReaches (decAt 65#16 cyclic 2).dec.dict 256#16 257 256#16) ∧
    ((257#16).toNat = (decAt 256#16 cyclic 2).dec.size ∧ 257 = (decAt 256#16 cyclic 2).dec.size ∧
      (decAt 256#16 cyclic 2).dec.i ≠ 65535#16 ∧
      ChainReaches (decAt 256#16 cyclic 2).dec.dict (decAt 256#16 cyclic 2).dec.i 257 256#16) :=
  ⟨⟨by decide, by simp [decAt, dangling, Dec.size], by simp [decAt, dangling, Dec.size], dangling_reaches⟩,
    ⟨by simp [decAt, Dec.size], by simp [decAt, Dec.size], by simp [decAt], .start⟩,
    ⟨by simp [decAt, cyclic, Dec.size], by simp [decAt, cyclic, Dec.size], cyclic_reaches 257⟩,
    by simp [decAt, cyclic, Dec.size], by simp [decAt, cyclic, Dec.size], by simp [decAt], cyclic_reaches 257⟩

theorem witness_DecCodeReseedsAtCapacity : IsDecCode (.decCodeBase 161#16) 161#16 ∧
    (decAt 192#16 (decFill 65279) 65280).dec.size = 65535 ∧ (decAt 65#16 decBase 1).dec.size ≤ 65535 :=
  ⟨.inl rfl, by simp [decAt, Dec.size], by simp [decAt, Dec.size]⟩

/-- F10, on a KNOWN and a SELF step, and on the first code of a run. -/
theorem witness_DecEmissionTransportKeepsTheAppend : ∀ e : HostError,
    (IsDecCode (.decCodeBase 66#16) 66#16 ∧ (decAt 65#16 decBase 1).dec.size ≠ 65535 ∧
      (decAt 65#16 decBase 1).dec.i ≠ 65535#16 ∧
      SinkFailsAfter 0 e (withReplies (decAt 65#16 decBase 1) [.fail e]) ∧
      (66#16).toNat < (decAt 65#16 decBase 1).dec.size ∧ Spells decBase 66#16 [0x42#8]) ∧
    (SinkFailsAfter 1 e (withReplies (decAt 65#16 decBase 1) [.accept, .fail e]) ∧
      (256#16).toNat = (decAt 65#16 decBase 1).dec.size ∧ Spells decBase (decAt 65#16 decBase 1).dec.i [0x41#8]) ∧
    ((decAt 65535#16 decBase 0).dec.i = 65535#16 ∧ (decAt 65535#16 decBase 0).dec.size ≠ 65535 ∧
      SinkFailsAfter 0 e (withReplies (decAt 65535#16 decBase 0) [.fail e]) ∧
      (66#16).toNat < (decAt 65535#16 decBase 0).dec.size) :=
  fun _ => ⟨⟨.inl rfl, by simp [decAt, Dec.size], by simp [decAt], fails_first _ _, by simp [decAt, Dec.size],
    decBase_spells (n := 66) (by omega)⟩, ⟨fails_second _ _, by simp [decAt, Dec.size],
    decBase_spells (n := 65) (by omega)⟩, by simp [decAt], by simp [decAt, Dec.size], fails_first _ _,
    by simp [decAt, Dec.size]⟩

theorem witness_DecEndChecksForAPartialCode :
    ((decAt 65#16 decBase 1).mode = .decompress ∧ (decAt 65#16 decBase 1).dec.phase = .run ∧
      (decAt 65#16 decBase 1).dec.holdValid = false) ∧
    (decHolding.mode = .decompress ∧ decHolding.dec.phase = .run ∧ decHolding.dec.holdValid = true) ∧
    State.reset.dec.phase ≠ .run := ⟨⟨rfl, rfl, rfl⟩, ⟨rfl, rfl, rfl⟩, by decide⟩

/-- F1: the fault is not `Transport`. -/
theorem witness_FaultingDecCodeLeavesThePreviousCode :
    ∃ t, exec (.decCodeLearned 257#16) (decAt 65#16 decBase 1) = .next t ∧ t.dec.phase = .fault ∧
      ∀ e, t.dec.fault ≠ .transport e .output := by
  obtain ⟨t, ht, h⟩ := nextWith (r := exec (.decCodeLearned 257#16) (decAt 65#16 decBase 1))
    (p := fun t => decide (t.dec.phase = .fault ∧ t.dec.fault = .invalidCode 257#16 256 2)) (by decide +kernel)
  simp only [decide_eq_true_eq] at h
  exact ⟨t, ht, h.1, by rw [h.2]; intro e he; cases he⟩

theorem witness_CompletedDecCodeEmitsANonemptyString : (decAt 65#16 decBase 1).dec.size ≤ 65535 ∧
    ∃ t, exec (.decCodeBase 66#16) (decAt 65#16 decBase 1) = .next t ∧ t.dec.phase = .run :=
  ⟨by simp [decAt, Dec.size], by
    simpa using nextWith (r := exec (.decCodeBase 66#16) (decAt 65#16 decBase 1))
      (p := fun t => decide (t.dec.phase = .run)) (by decide +kernel)⟩

theorem witness_EveryDecCodeEnds : (decAt 192#16 (decFill 65279) 65280).mode = .decompress ∧
    (decAt 192#16 (decFill 65279) 65280).dec.phase = .run ∧ (decAt 192#16 (decFill 65279) 65280).dec.size ≤ 65535 :=
  ⟨rfl, rfl, by simp [decAt, Dec.size]⟩

theorem witness_EveryStepKeepsTheInvariant :
    (Inv (withEvent (encAt 65#16 encBase 1) (.transaction 0x142#10)) ∧
      ∃ t, step (withEvent (encAt 65#16 encBase 1) (.transaction 0x142#10)) = .next t ∧ t.enc.size = 257) ∧
    (Inv (withEvent (decAt 65#16 decBase 1) (.code 256#16)) ∧
      ∃ t, step (withEvent (decAt 65#16 decBase 1) (.code 256#16)) = .next t ∧ t.dec.size = 257) :=
  ⟨⟨inv_channels encMid_inv _ _ _, by
      simpa using nextWith (r := step (withEvent (encAt 65#16 encBase 1) (.transaction 0x142#10)))
        (p := fun t => decide (t.enc.size = 257)) (by decide +kernel)⟩,
    inv_channels decMid_inv _ _ _, by
      simpa using nextWith (r := step (withEvent (decAt 65#16 decBase 1) (.code 256#16)))
        (p := fun t => decide (t.dec.size = 257)) (by decide +kernel)⟩

theorem witness_EveryStepKeepsTheEpochAccounting :
    (EpochInv (withEvent (encAt 65535#16 encBase 0) (.transaction 0x142#10)) ∧
      ∃ t, step (withEvent (encAt 65535#16 encBase 0) (.transaction 0x142#10)) = .next t) ∧
    (EpochInv (withEvent (decAt 65#16 decBase 1) (.code 256#16)) ∧
      ∃ t, step (withEvent (decAt 65#16 decBase 1) (.code 256#16)) = .next t) := by
  refine ⟨⟨⟨fun _ => ⟨0, by simp [withEvent, encAt, Enc.size]⟩, fun h => ?_⟩, nextOf (by decide +kernel)⟩,
    ⟨⟨fun h => ?_, fun _ => ?_⟩, nextOf (by decide +kernel)⟩⟩
  · simp [withEvent, encAt, State.reset, Dec.reset] at h
  · simp [withEvent, decAt, State.reset, Enc.reset] at h
  · exact .inr ⟨by simp [withEvent, decAt], 0, by simp [withEvent, decAt, Dec.size]⟩

/-- The states the two contracts start from: `MODE` as selected, no run open, a channel that never fails;
output bytes of an earlier run may stand before them. -/
theorem witness_contracts :
    (State.reset.mode = .compress ∧ State.reset.enc.phase ≠ .run ∧ State.reset.sink = []) ∧
    (({ State.reset with mode := .decompress, output := [0x41#8] } : State).mode = .decompress ∧
      ({ State.reset with mode := .decompress, output := [0x41#8] } : State).dec.phase ≠ .run ∧
      ({ State.reset with mode := .decompress, output := [0x41#8] } : State).sink = [] ∧
      ({ State.reset with mode := .decompress, output := [0x41#8] } : State).byteOrder =
        State.reset.byteOrder) :=
  ⟨⟨rfl, by decide, rfl⟩, rfl, by decide, rfl, rfl⟩

end Sys2Proof.Tests
end

/-! ## The scope of the machine: power-on, configuration, separation of the two machines, `REBUILD`

Proofs of the statements on 00_scope.md, with the lemmas they turn on. -/

namespace Sys2Proof.Machine

/-! ### Power-on (R10, R140) -/

/-- Settles O9, by the values `State.reset` names. -/
theorem powerOnLeavesBothMachinesIdle : Obligations.PowerOnLeavesBothMachinesIdle :=
  ⟨rfl, rfl, rfl⟩

/-! ### The string of a code is no longer than the store (R101)

The codes of a prefix chain that ends spell strings of pairwise different lengths, so they are pairwise
different, and each is an index into the store. -/

/-- R68: every nonempty first part of a code's string is the string of a code in the store. -/
theorem Spells.exists_spells_take {d : List DecRecord} {x : Code} {t : List Byte} (h : Spells d x t)
    {m : Nat} (hpos : 0 < m) (hle : m ≤ t.length) :
    ∃ y : Code, y.toNat < d.length ∧ Spells d y (t.take m) := by
  induction h with
  | clear => simp at hle; omega
  | @record x r t hx hr ht ih =>
    rcases Nat.lt_or_ge t.length m with hm | hm
    · refine ⟨x, (List.getElem?_eq_some_iff.mp hr).1, ?_⟩
      rw [List.take_of_length_le (by simp; omega)]
      exact .record hx hr ht
    · rw [List.take_append_of_le_length hm]
      exact ih hm

/-- R101: a chain that ends reads each record of the store at most once. -/
theorem Spells.length_le {d : List DecRecord} {x : Code} {t : List Byte} (h : Spells d x t) :
    t.length ≤ d.length := by
  choose code hlt hspells using fun m : Fin t.length => h.exists_spells_take m.val.succ_pos m.isLt
  have hinj : Function.Injective fun m => (⟨(code m).toNat, hlt m⟩ : Fin d.length) := by
    intro m n hmn
    have hcode : code m = code n := BitVec.eq_of_toNat_eq (Fin.mk.inj hmn)
    have hlen := congrArg List.length ((hspells m).unique (hcode ▸ hspells n))
    simp only [List.length_take] at hlen
    omega
  simpa using Fintype.card_le_of_injective _ hinj

/-- R100: the walk of a chain that ends answers the string of its code. -/
theorem rebuildString_of_spells {d : List DecRecord} {n : Code} {t : List Byte} (h : Spells d n t) :
    rebuildString n d = .string t := by
  rw [rebuildString, walkChain_of_spells h _ _ h.length_le, List.append_nil]

/-- R100: inside an operation, the rest of the operation runs on the string of the code. -/
theorem rebuildThen_of_spells {s : State} {n : Code} {t : List Byte} (h : Spells s.dec.dict n t)
    (rest : List Byte → Flow) : rebuildThen n s rest = rest t := by
  rw [rebuildThen, rebuildString_of_spells h]

/-- Settles O32: the string is no longer than the store, so the walk's bound is never met. -/
theorem rebuildAnswersTheStringOfTheCode : Obligations.RebuildAnswersTheStringOfTheCode := by
  intro s n t h
  change execRebuild n s = _
  rw [execRebuild, rebuildThen_of_spells h, Flow.finish_go]
  rfl

/-! ### Configuration (R12, R27): `MODE` and `BYTE_ORDER`, which no operation but `SYS.SELECT` writes -/

/-- R13(c), R27: what stands outside both machines and the channels. -/
def State.config (s : State) : Mode × ByteOrder := (s.mode, s.byteOrder)

theorem State.config_eq_iff {s t : State} :
    t.config = s.config ↔ t.mode = s.mode ∧ t.byteOrder = s.byteOrder := Prod.mk_inj

@[simp] theorem State.withEnc_config (s : State) (e : Enc) : (s.withEnc e).config = s.config := rfl
@[simp] theorem State.withDec_config (s : State) (d : Dec) : (s.withDec d).config = s.config := rfl
@[simp] theorem State.withInput_config (s : State) (l : List HostEvent) :
    (s.withInput l).config = s.config := rfl
@[simp] theorem State.withFreeIdx_config (s : State) (n : Nat) : (s.withFreeIdx n).config = s.config := rfl
@[simp] theorem State.wrote_config (s : State) (bs : List Byte) : (s.wrote bs).config = s.config := rfl
@[simp] theorem State.wroteUntilRefused_config (s : State) (bs : List Byte) :
    (s.wroteUntilRefused bs).config = s.config := rfl
@[simp] theorem State.missInserted_config (s : State) (c : Byte) : (s.missInserted c).config = s.config := rfl
@[simp] theorem raise_config (a : Agent) (f : FaultRecord) (s : State) :
    (raise a f s).config = s.config := by cases a <;> rfl
@[simp] theorem reseedEncoder_config (s : State) : (reseedEncoder s).config = s.config := rfl
@[simp] theorem reseedDecoder_config (s : State) : (reseedDecoder s).config = s.config := rfl
@[simp] theorem startEncoder_config (s : State) : (startEncoder s).config = s.config := rfl
@[simp] theorem startDecoder_config (s : State) : (startDecoder s).config = s.config := rfl
@[simp] theorem encCapacityCheck_config (s : State) : (encCapacityCheck s).config = s.config := by
  unfold encCapacityCheck; split <;> simp
@[simp] theorem decCapacityCheck_config (s : State) : (decCapacityCheck s).config = s.config := by
  unfold decCapacityCheck; split <;> simp

/-- A flow that ends, ends with the configuration `c`. -/
def Flow.EndsIn (c : Mode × ByteOrder) (x : Flow) : Prop := ∀ t, x.finish = .next t → t.config = c

@[simp] theorem Flow.endsIn_go {c : Mode × ByteOrder} {s : State} : (Flow.go s).EndsIn c ↔ s.config = c := by
  simp [Flow.EndsIn]
@[simp] theorem Flow.endsIn_raised {c : Mode × ByteOrder} {s : State} :
    (Flow.raised s).EndsIn c ↔ s.config = c := by simp [Flow.EndsIn]
@[simp] theorem Flow.endsIn_stuck (c : Mode × ByteOrder) (f : Fault) : (Flow.stuck f).EndsIn c := by
  simp [Flow.EndsIn]

theorem outCode_config (v : Code) (s : State) : (outCode v s).EndsIn s.config := by
  rcases outCode_cases v s with h | ⟨e, -, h⟩ | ⟨e, -, h⟩ <;> simp [h]

theorem encMiss_config (c : Byte) (s : State) : (encMiss c s).EndsIn s.config := by
  rcases encMiss_cases c s with ⟨-, h⟩ | ⟨-, h⟩ | ⟨-, e, -, h⟩ | ⟨-, e, -, h⟩ <;> simp [h]

theorem encLookupStep_config (c : Byte) (s : State) : (encLookupStep c s).EndsIn s.config := by
  cases hl : encLookup s.enc.i c s.enc.dict with
  | none => rw [encLookupStep_miss hl]; exact encMiss_config c s
  | some r => simp [encLookupStep_hit hl]

theorem emitAndAdvance_config (k : Code) (s : State) : (emitAndAdvance k s).EndsIn s.config := by
  rcases emitAndAdvance_cases k s with h | ⟨e, n, -, -, h⟩ <;> simp [h]

theorem decodeCode_config (k : Code) (s : State) : (decodeCode k s).EndsIn s.config := by
  rcases decodeCode_cases k s with ⟨f, -, h⟩ | ⟨-, -, t, -, h⟩ | ⟨-, -, b, t, -, h⟩ |
      ⟨-, -, b, t, u, -, ⟨-, h⟩ | ⟨x, -, h⟩⟩ | h <;> rw [h]
  case inr.inl | inr.inr.inl | inr.inr.inr.inl.inl => exact emitAndAdvance_config k _
  all_goals simp

theorem rebuildThen_config {n : Code} {s : State} {rest : List Byte → Flow}
    (h : ∀ t, (rest t).EndsIn s.config) : (rebuildThen n s rest).EndsIn s.config := by
  unfold rebuildThen
  split
  · exact h _
  · simp

theorem decCodeStep_config {k : Code} {s t : State} (h : decCodeStep k s = .next t) : t.config = s.config := by
  simpa using decodeCode_config k _ t h

theorem execEncStart_config {s t : State} (h : execEncStart s = .next t) : t.config = s.config := by
  obtain ⟨-, -, hb⟩ := whenStartable_next h
  cases hb; simp

theorem execDecStart_config {s t : State} (h : execDecStart s = .next t) : t.config = s.config := by
  obtain ⟨-, -, hb⟩ := whenStartable_next h
  cases hb; simp

theorem execEncByte_config {c : Byte} {s t : State} (h : execEncByte c s = .next t) :
    t.config = s.config := by
  obtain ⟨-, -, hb⟩ := whenRunning_next h
  simpa using encLookupStep_config c _ t hb

theorem execEncEnd_config {s t : State} (h : execEncEnd s = .next t) : t.config = s.config := by
  obtain ⟨hm, hp, -⟩ := whenRunning_next h
  rcases encEnd_cases s hm hp with ⟨-, he⟩ | ⟨-, he⟩ | ⟨-, e, -, he⟩ | ⟨-, e, -, he⟩ <;>
    (rw [he] at h; cases h; simp)

theorem execDecIn_config {b : Byte} {s t : State} (h : execDecIn b s = .next t) : t.config = s.config := by
  obtain ⟨-, -, hb⟩ := whenRunning_next h
  dsimp only at hb
  split at hb
  · simpa using decCodeStep_config hb
  · cases hb; rfl

theorem execDecEnd_config {s t : State} (h : execDecEnd s = .next t) : t.config = s.config := by
  obtain ⟨-, -, hb⟩ := whenRunning_next h
  split at hb <;> (cases hb; simp)

theorem readFailed_config {e : HostError} {s t : State} (h : readFailed e s = .next t) :
    t.config = s.config := by
  obtain ⟨-, -, hb⟩ := whenRunning_next h
  cases hb; simp

/-- R110, R112: `SYS.SELECT` has a step only between runs, and it sets `MODE` and nothing else. -/
theorem execSysSelect_next {m : Mode} {s t : State} (h : execSysSelect m s = .next t) :
    s.enc.phase ≠ .run ∧ s.dec.phase ≠ .run ∧ t = s.withMode m := by
  unfold execSysSelect at h
  split at h
  · cases h
  · next hrun => cases h; exact ⟨fun he => hrun (.inl he), fun hd => hrun (.inr hd), rfl⟩

/-- R27: every operation but `SYS.SELECT` keeps the configuration. -/
theorem exec_config {i : Instr} {s t : State} (hi : ∀ m, i ≠ .sysSelect m) (h : exec i s = .next t) :
    t.config = s.config := by
  cases i with
  | sysSelect m => exact absurd rfl (hi m)
  | encStart => exact execEncStart_config h
  | encByte c => exact execEncByte_config h
  | encEnd => exact execEncEnd_config h
  | decStart => exact execDecStart_config h
  | decIn b => exact execDecIn_config h
  | decEnd => exact execDecEnd_config h
  | t10Reserved => cases h
  | decCodeBase k | decCodeLearned k | decCodeClear =>
    obtain ⟨-, -, hb⟩ := whenRunning_next h
    exact decCodeStep_config hb
  | reseedEnc | reseedDec => cases h; simp
  | rebuild n => exact rebuildThen_config (by simp) t h
  | outCode v => exact outCode_config v s t h

/-! #### The event a step takes -/

/-- R58: no `T10` word is `SYS.SELECT`. -/
theorem decodeT10_ne_sysSelect (m m' : Mode) (w : BitVec 10) : decodeT10 m w ≠ .sysSelect m' := by
  unfold decodeT10
  cases m <;> split_ifs <;> simp

/-- R55: no code is `SYS.SELECT`. -/
theorem decodeDecCode_ne_sysSelect (m : Mode) (w : BitVec 16) : decodeDecCode w ≠ .sysSelect m := by
  unfold decodeDecCode
  split_ifs <;> simp

/-- R42: taking an event changes neither the configuration nor a phase. -/
theorem fetch_instr_frame {s u : State} {i : Instr} (h : fetch s = .instr i u) :
    u.config = s.config ∧ u.enc.phase = s.enc.phase ∧ u.dec.phase = s.dec.phase := by
  unfold fetch at h
  split at h
  case h_4 => split at h <;> cases h; simp
  all_goals cases h
  all_goals simp

/-- R58, R110: `SYS.SELECT` is taken from a `MODE1` word only. -/
theorem fetch_sysSelect {s u : State} {m : Mode} (h : fetch s = .instr (.sysSelect m) u) :
    ∃ w rest, s.input = .select w :: rest := by
  unfold fetch at h
  split at h
  case h_2 w rest hin => exact ⟨w, rest, hin⟩
  case h_3 w rest hin => exact absurd (Fetched.instr.inj h).1 (decodeT10_ne_sysSelect _ _ _)
  case h_4 w rest hin =>
    split at h
    · cases h
    · exact absurd (Fetched.instr.inj h).1 (decodeDecCode_ne_sysSelect _ _)
  all_goals cases h

theorem fetch_failed_config {s u : State} {e : HostError} (h : fetch s = .failed e u) :
    u.config = s.config := by
  unfold fetch at h
  split at h
  case h_4 => split at h <;> cases h
  all_goals cases h
  rfl

/-- R27, R110: a step keeps the configuration, or it takes a `MODE1` word between runs and sets `MODE`
alone. -/
theorem step_config {s t : State} (h : step s = .next t) :
    t.config = s.config ∨
      (t.byteOrder = s.byteOrder ∧ s.enc.phase ≠ .run ∧ s.dec.phase ≠ .run ∧
        ∃ w rest, s.input = .select w :: rest) := by
  unfold step at h
  split at h
  case h_1 i u hf =>
    obtain ⟨hc, he, hd⟩ := fetch_instr_frame hf
    by_cases hi : ∃ m, i = .sysSelect m
    · obtain ⟨m, rfl⟩ := hi
      obtain ⟨henc, hdec, rfl⟩ := execSysSelect_next h
      exact .inr ⟨(State.config_eq_iff.mp hc).2, he ▸ henc, hd ▸ hdec, fetch_sysSelect hf⟩
    · exact .inl ((exec_config (not_exists.mp hi) h).trans hc)
  case h_2 e u hf => exact .inl ((readFailed_config h).trans (fetch_failed_config hf))
  case h_3 => cases h

/-- Settles O16, by what a step can do to the configuration. -/
theorem configurationIsFixedDuringARun : Obligations.ConfigurationIsFixedDuringARun := by
  intro s t h
  rcases step_config h with hc | ⟨hb, hrest⟩
  · obtain ⟨hm, hb⟩ := State.config_eq_iff.mp hc
    exact ⟨hb, fun hne => absurd hm hne⟩
  · exact ⟨hb, fun _ => hrest⟩

/-! ### The two machines share no state (R13, R115)

Replacing the other machine's set, `(·.withDec d)` for the encoder and `(·.withEnc e)` for the decoder,
commutes with every part of an operation, so it commutes with the operation. -/

/-- A flow with the state it stands in changed by `f`. -/
def Flow.map (f : State → State) : Flow → Flow
  | .go s => .go (f s)
  | .raised s => .raised (f s)
  | .stuck r => .stuck r

theorem Flow.finish_map (f : State → State) (x : Flow) : (x.map f).finish = mapNext f x.finish := by
  cases x <;> rfl

theorem Flow.andThen_map {f : State → State} (x : Flow) {rest : State → Flow}
    (h : ∀ t, rest (f t) = (rest t).map f) :
    (x.map f).andThen rest = (x.andThen rest).map f := by
  cases x with
  | go t => exact h t
  | raised t | stuck r => rfl

/-- R112: what keeps the selection and the phase of a machine commutes with its guard. -/
theorem whenRunning_map (f : State → State) {a : Agent} {s : State} {body : State → Result}
    (hm : (f s).mode = s.mode) (hp : (f s).phaseOf a = s.phaseOf a) (hb : body (f s) = mapNext f (body s)) :
    whenRunning a (f s) body = mapNext f (whenRunning a s body) := by
  unfold whenRunning
  rw [hm, hp, hb]
  split_ifs <;> rfl

/-- R112: what keeps the selection and the phase of a machine commutes with the guard of its `START`. -/
theorem whenStartable_map (f : State → State) {a : Agent} {s : State} {body : State → Result}
    (hm : (f s).mode = s.mode) (hp : (f s).phaseOf a = s.phaseOf a) (hb : body (f s) = mapNext f (body s)) :
    whenStartable a (f s) body = mapNext f (whenStartable a s body) := by
  unfold whenStartable
  rw [hm, hp, hb]
  split_ifs <;> rfl

theorem firstByteThen_map {f : State → State} (t : List Byte) {rest rest' : Byte → Flow}
    (h : ∀ b, rest' b = (rest b).map f) :
    firstByteThen t rest' = (firstByteThen t rest).map f := by
  cases t with
  | nil => rfl
  | cons b t => exact h b

/-! #### The encoder and the decoder set -/

/-- R83: the miss case: the insertion, the emission of the last match, the new match. -/
theorem encMiss_eq (c : Byte) (s : State) :
    encMiss c s = (if s.enc.i = Config.clear then Flow.go (s.missInserted c)
      else emitCode s.enc.i (s.missInserted c)).andThen fun u =>
        .go (u.withEnc { u.enc with i := baseCode c, inPos := u.enc.inPos + 1 }) := rfl

section Encoder
variable (d : Dec) (s : State)

theorem outByte_encoder_withDec (b : Byte) :
    outByte .encoder b (s.withDec d) = (outByte .encoder b s).map (·.withDec d) := by
  unfold outByte
  rw [State.withDec_sink]
  split <;> rfl

theorem outCode_withDec (v : Code) : outCode v (s.withDec d) = (outCode v s).map (·.withDec d) := by
  rw [outCode, outByte_encoder_withDec]
  exact Flow.andThen_map _ fun t => outByte_encoder_withDec d t _

theorem emitCode_withDec (v : Code) : emitCode v (s.withDec d) = (emitCode v s).map (·.withDec d) := by
  rw [emitCode, outCode_withDec]
  exact Flow.andThen_map _ fun _ => rfl

/-- R83, R85: the emission of the last match, when there is one. -/
theorem emitMatch_withDec (i : Code) :
    (if i = Config.clear then Flow.go (s.withDec d) else emitCode i (s.withDec d)) =
      (if i = Config.clear then Flow.go s else emitCode i s).map (·.withDec d) := by
  rw [emitCode_withDec]
  split_ifs <;> rfl

theorem State.missInserted_withDec (c : Byte) :
    (s.withDec d).missInserted c = (s.missInserted c).withDec d := rfl

theorem encMiss_withDec (c : Byte) : encMiss c (s.withDec d) = (encMiss c s).map (·.withDec d) := by
  rw [encMiss_eq, State.missInserted_withDec, State.withDec_enc, emitMatch_withDec, encMiss_eq]
  exact Flow.andThen_map _ fun _ => rfl

theorem encLookupStep_withDec (c : Byte) :
    encLookupStep c (s.withDec d) = (encLookupStep c s).map (·.withDec d) := by
  cases hl : encLookup s.enc.i c s.enc.dict with
  | none => rw [encLookupStep_miss hl, encLookupStep_miss (s := s.withDec d) hl, encMiss_withDec]
  | some r => rw [encLookupStep_hit hl, encLookupStep_hit (s := s.withDec d) hl]; rfl

theorem encCapacityCheck_withDec :
    encCapacityCheck (s.withDec d) = (encCapacityCheck s).withDec d := by
  by_cases h : s.enc.size = Config.capacity
  · rw [encCapacityCheck_full h, encCapacityCheck_full (s := s.withDec d) h]; rfl
  · rw [encCapacityCheck_below h, encCapacityCheck_below (s := s.withDec d) h]

theorem execEncStart_withDec : execEncStart (s.withDec d) = mapNext (·.withDec d) (execEncStart s) :=
  whenStartable_map (·.withDec d) rfl rfl rfl

theorem execEncByte_withDec (c : Byte) :
    execEncByte c (s.withDec d) = mapNext (·.withDec d) (execEncByte c s) := by
  refine whenRunning_map (·.withDec d) rfl rfl ?_
  rw [encCapacityCheck_withDec, encLookupStep_withDec, Flow.finish_map]

theorem execEncEnd_withDec : execEncEnd (s.withDec d) = mapNext (·.withDec d) (execEncEnd s) := by
  refine whenRunning_map (·.withDec d) rfl rfl ?_
  rw [State.withDec_enc, emitMatch_withDec, Flow.andThen_map _ (fun _ => rfl), Flow.finish_map]

theorem execOutCode_withDec (v : Code) :
    execOutCode v (s.withDec d) = mapNext (·.withDec d) (execOutCode v s) := by
  rw [execOutCode, outCode_withDec, Flow.finish_map, execOutCode]

/-- R13, R115: an encoder operation commutes with a change of the decoder set. -/
theorem exec_withDec {i : Instr} (hi : isEncoderOp i = true) :
    exec i (s.withDec d) = mapNext (·.withDec d) (exec i s) := by
  cases i with
  | encStart => exact execEncStart_withDec d s
  | encByte c => exact execEncByte_withDec d s c
  | encEnd => exact execEncEnd_withDec d s
  | reseedEnc => rfl
  | outCode v => exact execOutCode_withDec d s v
  | sysSelect _ | decStart | decIn _ | decEnd | t10Reserved | decCodeBase _ | decCodeLearned _
  | decCodeClear | reseedDec | rebuild _ => simp [isEncoderOp] at hi

end Encoder

/-! #### The decoder and the encoder set -/

section Decoder
variable (e : Enc) (s : State)

theorem outByte_decoder_withEnc (b : Byte) :
    outByte .decoder b (s.withEnc e) = (outByte .decoder b s).map (·.withEnc e) := by
  unfold outByte
  rw [State.withEnc_sink]
  split <;> rfl

theorem emitBytes_withEnc (bs : List Byte) :
    emitBytes bs (s.withEnc e) = (emitBytes bs s).map (·.withEnc e) := by
  induction bs generalizing s with
  | nil => rfl
  | cons b bs ih =>
    rw [emitBytes, outByte_decoder_withEnc]
    exact Flow.andThen_map _ fun t => ih (t.withDec _)

theorem emitAndAdvance_withEnc (k : Code) :
    emitAndAdvance k (s.withEnc e) = (emitAndAdvance k s).map (·.withEnc e) := by
  rw [emitAndAdvance, emitBytes_withEnc]
  exact Flow.andThen_map _ fun _ => rfl

theorem rebuildThen_withEnc (n : Code) {rest rest' : List Byte → Flow}
    (h : ∀ t, rest' t = (rest t).map (·.withEnc e)) :
    rebuildThen n (s.withEnc e) rest' = (rebuildThen n s rest).map (·.withEnc e) := by
  unfold rebuildThen
  rw [State.withEnc_dec]
  split
  · exact h _
  · rfl

theorem buildSelf_withEnc (k : Code) : buildSelf k (s.withEnc e) = (buildSelf k s).map (·.withEnc e) := by
  unfold buildSelf
  rw [State.withEnc_dec]
  split
  · rfl
  · exact rebuildThen_withEnc e s _ fun t => firstByteThen_map t fun b =>
      rebuildThen_withEnc e (s.withDec _) k fun _ => rfl

theorem buildKnown_withEnc (k : Code) : buildKnown k (s.withEnc e) = (buildKnown k s).map (·.withEnc e) := by
  refine rebuildThen_withEnc e s k fun t => ?_
  rw [State.withEnc_dec]
  split
  · rfl
  · exact firstByteThen_map t fun _ => rfl

theorem decodeCode_withEnc (k : Code) : decodeCode k (s.withEnc e) = (decodeCode k s).map (·.withEnc e) := by
  unfold decodeCode
  rw [State.withEnc_dec]
  split
  · rfl
  · rw [buildSelf_withEnc]; exact Flow.andThen_map _ fun t => emitAndAdvance_withEnc e t k
  · rw [buildKnown_withEnc]; exact Flow.andThen_map _ fun t => emitAndAdvance_withEnc e t k

theorem decCapacityCheck_withEnc :
    decCapacityCheck (s.withEnc e) = (decCapacityCheck s).withEnc e := by
  by_cases h : s.dec.size = Config.capacity
  · rw [decCapacityCheck_full h, decCapacityCheck_full (s := s.withEnc e) h]; rfl
  · rw [decCapacityCheck_below h, decCapacityCheck_below (s := s.withEnc e) h]

theorem decCodeStep_withEnc (k : Code) :
    decCodeStep k (s.withEnc e) = mapNext (·.withEnc e) (decCodeStep k s) := by
  have hcheck := decCapacityCheck_withEnc e (s.withDec { s.dec with k := k })
  change (decodeCode k (decCapacityCheck ((s.withDec { s.dec with k := k }).withEnc e))).finish = _
  rw [hcheck, decodeCode_withEnc, Flow.finish_map]
  rfl

theorem execDecStart_withEnc : execDecStart (s.withEnc e) = mapNext (·.withEnc e) (execDecStart s) :=
  whenStartable_map (·.withEnc e) rfl rfl rfl

theorem execDecIn_withEnc (b : Byte) :
    execDecIn b (s.withEnc e) = mapNext (·.withEnc e) (execDecIn b s) := by
  refine whenRunning_map (·.withEnc e) rfl rfl ?_
  cases hv : s.dec.holdValid with
  | false => simp only [State.withDec_dec, State.withEnc_dec, hv, Bool.false_eq_true, if_false]; rfl
  | true =>
    simp only [State.withDec_dec, State.withEnc_dec, hv, if_true]
    exact decCodeStep_withEnc e (s.withDec _) _

theorem execDecEnd_withEnc : execDecEnd (s.withEnc e) = mapNext (·.withEnc e) (execDecEnd s) := by
  refine whenRunning_map (·.withEnc e) rfl rfl ?_
  rw [State.withEnc_dec]
  split <;> rfl

/-- R92: the three `DEC.CODE` rows. -/
theorem whenRunning_decCodeStep_withEnc (k : Code) :
    whenRunning .decoder (s.withEnc e) (decCodeStep k) =
      mapNext (·.withEnc e) (whenRunning .decoder s (decCodeStep k)) :=
  whenRunning_map (·.withEnc e) rfl rfl (decCodeStep_withEnc e s k)

theorem execRebuild_withEnc (n : Code) :
    execRebuild n (s.withEnc e) = mapNext (·.withEnc e) (execRebuild n s) := by
  have hwalk := rebuildThen_withEnc e s n
    (rest := fun str => .go (s.withDec { s.dec with str := str })) fun _ => rfl
  exact (congrArg Flow.finish hwalk).trans (Flow.finish_map _ _)

/-- R13, R115: a decoder operation commutes with a change of the encoder set. -/
theorem exec_withEnc {i : Instr} (hi : isDecoderOp i = true) :
    exec i (s.withEnc e) = mapNext (·.withEnc e) (exec i s) := by
  cases i with
  | decStart => exact execDecStart_withEnc e s
  | decIn b => exact execDecIn_withEnc e s b
  | decEnd => exact execDecEnd_withEnc e s
  | decCodeBase k | decCodeLearned k => exact whenRunning_decCodeStep_withEnc e s k
  | decCodeClear => exact whenRunning_decCodeStep_withEnc e s Config.clear
  | reseedDec => rfl
  | rebuild n => exact execRebuild_withEnc e s n
  | sysSelect _ | encStart | encByte _ | encEnd | t10Reserved | reseedEnc | outCode _ =>
    simp [isDecoderOp] at hi

end Decoder

/-- Settles O18: a change of the other machine's set commutes with every operation of a machine. -/
theorem machinesShareNoState : Obligations.MachinesShareNoState :=
  fun _ s => ⟨fun hi d => exec_withDec d s hi, fun hi e => exec_withEnc e s hi⟩

end Sys2Proof.Machine

/-! ## The state of the machine (10_state.md): the two stores, the invariant of the core, fault records

Proofs of the statements on 10_state.md, with the lemmas they turn on. The invariant is the conjunction
of one invariant for each machine, so each operation is looked at for its own machine alone. -/

namespace Sys2Proof.Machine

/-! ### The encoder store is an exact map (R15, R31, R33) -/

/-- R54, R72: the base key of a byte is in every started store. -/
theorem EncStoreOk.lookup_base {d : List EncEntry} (h : EncStoreOk d) (c : Byte) :
    encLookup Config.clear c d = some (baseCode c) := by
  simpa [baseCode] using encLookup_of_mem (List.mem_of_getElem? (h.base_get c.isLt)) h.keys

/-- R31: the pairs of a store in canonical form are what its lookups answer. -/
theorem Memory.wf.mem_iff {d : List EncEntry} (h : Memory.wf d) (e : EncEntry) :
    e ∈ d ↔ encLookup e.pre e.byte d = some e.code := by
  refine ⟨fun he => encLookup_of_mem he (h.imp And.right), fun hl => ?_⟩
  obtain ⟨f, hf, hpre, hbyte, hcode⟩ := encLookup_some hl
  rwa [show e = f by cases e; cases f; simp_all]

theorem Memory.wf.nodup {d : List EncEntry} (h : Memory.wf d) : d.Nodup :=
  h.imp fun hab heq => by simp [heq] at hab

/-- Settles O31: both lists hold the same pairs, and both hold them in the order of their codes. -/
theorem canonicalEncoderStoresAreEqual : Obligations.CanonicalEncoderStoresAreEqual := by
  intro d₁ d₂ h₁ h₂ hlookup
  have hperm : d₁.Perm d₂ := (List.perm_ext_iff_of_nodup h₁.nodup h₂.nodup).mpr fun e => by
    rw [h₁.mem_iff, h₂.mem_iff, hlookup]
  exact hperm.eq_of_pairwise (fun a b _ _ hab hba => absurd hab.1 (Nat.lt_asymm hba.1)) h₁ h₂

/-! ### The strings of a closed decoder store (R101, R106) -/

/-- R97: a present code is not `CLEAR`. -/
theorem ne_clear_of_lt {x : Code} {n : Nat} (hx : x.toNat < n) (hn : n ≤ 65535) : x ≠ Config.clear := by
  rintro rfl
  exact absurd (hx.trans_le hn) (by decide)

/-- R101, R106: a base code spells its byte, and a learned record adds its byte to the string of a code
below it. -/
theorem DecStoreOk.exists_spells {d : List DecRecord} (h : DecStoreOk d)
    (hbelow : ∀ (n : Nat) (r : DecRecord), 256 ≤ n → d[n]? = some r → r.pre.toNat < n)
    {x : Code} (hx : x.toNat < d.length) : ∃ t, Spells d x t := by
  have hclear := ne_clear_of_lt hx h.bound
  induction hn : x.toNat using Nat.strong_induction_on generalizing x with
  | _ n ih =>
    subst hn
    rcases Nat.lt_or_ge x.toNat 256 with hbase | hlearned
    · exact ⟨_, .record hclear (h.base_get hbase) .clear⟩
    · have hr : d[x.toNat]? = some d[x.toNat] := List.getElem?_eq_getElem hx
      have hlt := hbelow _ _ hlearned hr
      obtain ⟨t, ht⟩ := ih _ hlt (hlt.trans hx) (ne_clear_of_lt (hlt.trans hx) h.bound) rfl
      exact ⟨_, .record hclear hr ht⟩

/-- Settles O34: the string of a present code is nonempty, and no longer than the store. -/
theorem closedStoresSpellEveryCode : Obligations.ClosedStoresSpellEveryCode := by
  intro dict hok hbelow n hn
  obtain ⟨t, ht⟩ := hok.exists_spells hbelow hn
  exact ⟨t, ht, ht.length_pos (ne_clear_of_lt hn hok.bound), ht.length_le⟩

/-! ### The invariant of each machine -/

/-- The part of `Inv` that speaks of the encoder. -/
structure EncInv (m : Mode) (e : Enc) : Prop where
  fault : e.phase = .fault ↔ e.fault ≠ .none
  selected : e.phase = .run → m = .compress
  store : e.phase ≠ .idle → EncStoreOk e.dict
  matchOk : e.phase = .run ∨ e.phase = .done → EncMatchOk e

/-- The part of `Inv` that speaks of the decoder. -/
structure DecInv (m : Mode) (d : Dec) : Prop where
  fault : d.phase = .fault ↔ d.fault ≠ .none
  selected : d.phase = .run → m = .decompress
  store : d.phase ≠ .idle → DecStoreOk d.dict
  prevOk : d.phase = .run ∨ d.phase = .done → DecPrevOk d

theorem inv_iff {s : State} : Inv s ↔ EncInv s.mode s.enc ∧ DecInv s.mode s.dec :=
  ⟨fun h => ⟨⟨h.encFault, h.encSelected, h.encStore, h.encMatch⟩,
    ⟨h.decFault, h.decSelected, h.decStore, h.decPrev⟩⟩,
   fun ⟨he, hd⟩ => ⟨he.fault, hd.fault, he.selected, hd.selected, he.store, hd.store,
    he.matchOk, hd.prevOk⟩⟩

/-- Settles O51: at power-on neither machine has a fault, and neither has been started. -/
theorem powerOnMeetsTheInvariants : Obligations.PowerOnMeetsTheInvariants :=
  have henc : EncInv State.reset.mode State.reset.enc := ⟨by decide, nofun, (absurd rfl ·), nofun⟩
  have hdec : DecInv State.reset.mode State.reset.dec := ⟨by decide, nofun, (absurd rfl ·), nofun⟩
  ⟨inv_iff.mpr ⟨henc, hdec⟩, nofun, nofun⟩

section Encoder
variable {m : Mode} {e : Enc}

theorem EncInv.noFault (h : EncInv m e) (hp : e.phase = .run) : e.fault = .none :=
  Classical.byContradiction fun hf => by simp [h.fault.mpr hf] at hp

theorem EncInv.storeOk (h : EncInv m e) (hp : e.phase = .run) : EncStoreOk e.dict := h.store (by simp [hp])

theorem EncInv.ofRun (hm : m = .compress) (hp : e.phase = .run) (hf : e.fault = .none)
    (hs : EncStoreOk e.dict) (hi : EncMatchOk e) : EncInv m e :=
  ⟨by simp [hp, hf], fun _ => hm, fun _ => hs, fun _ => hi⟩

theorem EncInv.ofDone (hp : e.phase = .done) (hf : e.fault = .none)
    (hs : EncStoreOk e.dict) (hi : EncMatchOk e) : EncInv m e :=
  ⟨by simp [hp, hf], by simp [hp], fun _ => hs, fun _ => hi⟩

/-- R130: a fault asks for nothing but the record and the store. -/
theorem EncInv.ofFault (hp : e.phase = .fault) (hf : e.fault ≠ .none) (hs : EncStoreOk e.dict) : EncInv m e :=
  ⟨by simp [hp, hf], by simp [hp], fun _ => hs, by simp [hp]⟩

/-- R110: `MODE` may change while the machine is not in `RUN`. -/
theorem EncInv.withMode (h : EncInv m e) (hp : e.phase ≠ .run) (m' : Mode) : EncInv m' e :=
  ⟨h.fault, (absurd · hp), h.store, h.matchOk⟩

end Encoder

section Decoder
variable {m : Mode} {d : Dec}

theorem DecInv.noFault (h : DecInv m d) (hp : d.phase = .run) : d.fault = .none :=
  Classical.byContradiction fun hf => by simp [h.fault.mpr hf] at hp

theorem DecInv.storeOk (h : DecInv m d) (hp : d.phase = .run) : DecStoreOk d.dict := h.store (by simp [hp])

theorem DecInv.ofRun (hm : m = .decompress) (hp : d.phase = .run) (hf : d.fault = .none)
    (hs : DecStoreOk d.dict) (hi : DecPrevOk d) : DecInv m d :=
  ⟨by simp [hp, hf], fun _ => hm, fun _ => hs, fun _ => hi⟩

theorem DecInv.ofDone (hp : d.phase = .done) (hf : d.fault = .none)
    (hs : DecStoreOk d.dict) (hi : DecPrevOk d) : DecInv m d :=
  ⟨by simp [hp, hf], by simp [hp], fun _ => hs, fun _ => hi⟩

/-- R130: a fault asks for nothing but the record and the store. -/
theorem DecInv.ofFault (hp : d.phase = .fault) (hf : d.fault ≠ .none) (hs : DecStoreOk d.dict) : DecInv m d :=
  ⟨by simp [hp, hf], by simp [hp], fun _ => hs, by simp [hp]⟩

/-- R110: `MODE` may change while the machine is not in `RUN`. -/
theorem DecInv.withMode (h : DecInv m d) (hp : d.phase ≠ .run) (m' : Mode) : DecInv m' d :=
  ⟨h.fault, (absurd · hp), h.store, h.prevOk⟩

end Decoder

/-! ### `ENC.BYTE` after its capacity check -/

/-- R82: what `ENC.BYTE` finds after its capacity check: besides the invariant, room for one pair. -/
structure ByteReady (e : Enc) : Prop where
  running : e.phase = .run
  noFault : e.fault = .none
  store : EncStoreOk e.dict
  room : e.size ≤ 65534
  matchOk : EncMatchOk e

/-- R82, R87 item 5: at capacity the match is a base code, so it is still in the store after `RESEED`. -/
theorem EncInv.byteReady {s : State} (h : EncInv s.mode s.enc) (hp : s.enc.phase = .run) :
    ByteReady (encCapacityCheck s).enc := by
  have hstore := h.storeOk hp
  have hmatch := h.matchOk (.inl hp)
  by_cases hsize : s.enc.size = Config.capacity
  · rw [encCapacityCheck_full hsize]
    have hbase : s.enc.i.toNat < 256 := hmatch.full hsize
    exact ⟨hp, h.noFault hp, .ofBase, by simp [Enc.size],
      hmatch.start, fun _ => by simpa [Enc.size] using hbase, fun _ => hbase⟩
  · rw [encCapacityCheck_below hsize]
    exact ⟨hp, h.noFault hp, hstore, Nat.le_of_lt_succ (Nat.lt_of_le_of_ne hstore.bound hsize), hmatch⟩

/-- Settles O25: the store has its base keys, and so has the store after the check. -/
theorem baseKeysAreAlwaysPresent : Obligations.BaseKeysAreAlwaysPresent := by
  intro c s hinv hp
  obtain ⟨he, -⟩ := inv_iff.mp hinv
  rw [← zext16_eq]
  exact ⟨(he.storeOk hp).lookup_base c, (he.byteReady hp).store.lookup_base c⟩

/-- R84: the hit case: the new match is in the store. -/
theorem ByteReady.hit {e : Enc} (h : ByteReady e) {c : Byte} {r : Code} (hl : encLookup e.i c e.dict = some r) :
    EncMatchOk { e with i := r, inPos := e.inPos + 1 } := by
  obtain ⟨f, hf, -, -, rfl⟩ := encLookup_some hl
  have hlt : f.code.toNat < e.size := h.store.code_lt hf
  have hne : f.code ≠ Config.clear := ne_clear_of_lt hlt h.store.bound
  exact ⟨by simpa using hne, fun _ => hlt, fun hfull => absurd (h.room.trans_eq' hfull) (by decide)⟩

/-- R83, R87 item 1: a miss has a match to insert under, and that match is in the store. -/
theorem ByteReady.miss {e : Enc} (h : ByteReady e) {c : Byte} (hl : encLookup e.i c e.dict = none) :
    EncStoreOk (encInsert e.i c (nextCode e.size) e.dict) := by
  have hne : e.i ≠ Config.clear := fun hc => by simp [hc, h.store.lookup_base] at hl
  exact h.store.insert hl (h.matchOk.known hne) h.room

/-- R54: a base code is a match to start from in every started store. -/
theorem EncMatchOk.ofBaseCode {e : Enc} (hs : EncStoreOk e.dict) (c : Byte) {n : Nat} (hi : e.i = baseCode c)
    (hn : e.inPos = n + 1) : EncMatchOk e := by
  have hlt : e.i.toNat < 256 := by rw [hi]; simp [baseCode, zext16]; omega
  have hne : e.i ≠ Config.clear := ne_clear_of_lt hlt (by omega)
  exact ⟨by simp [hne, hn], fun _ => hlt.trans_le hs.size_ge, fun _ => hlt⟩

theorem encInv_of_encLookupStep {s t : State} {c : Byte} (ht : (encLookupStep c s).finish = .next t)
    (h : ByteReady s.enc) (hm : s.mode = .compress) : EncInv t.mode t.enc := by
  cases hl : encLookup s.enc.i c s.enc.dict with
  | some r =>
    rw [encLookupStep_hit hl] at ht
    cases ht
    exact .ofRun hm h.running h.noFault h.store (h.hit hl)
  | none =>
    have hstore := h.miss hl
    rw [encLookupStep_miss hl] at ht
    rcases encMiss_cases c s with ⟨-, he⟩ | ⟨-, he⟩ | ⟨-, e, -, he⟩ | ⟨-, e, -, he⟩ <;>
      rw [he] at ht <;> cases ht
    · exact .ofRun hm h.running h.noFault hstore (.ofBaseCode hstore c rfl rfl)
    · exact .ofRun hm h.running h.noFault hstore (.ofBaseCode hstore c rfl rfl)
    · exact .ofFault rfl nofun hstore
    · exact .ofFault rfl nofun hstore

/-! ### The operations of the encoder keep its invariant -/

theorem encInv_of_execEncStart {s t : State} (h : execEncStart s = .next t) : EncInv t.mode t.enc := by
  obtain ⟨hm, -, hb⟩ := whenStartable_next h
  cases hb
  exact .ofRun (selectedAgent_encoder.mp hm) rfl rfl .ofBase
    ⟨iff_of_true rfl rfl, (absurd rfl ·), fun hfull => absurd hfull (by simp [Enc.size, startEncoder])⟩

theorem encInv_of_execEncByte {s t : State} {c : Byte} (h : execEncByte c s = .next t)
    (he : EncInv s.mode s.enc) : EncInv t.mode t.enc := by
  obtain ⟨-, hp, hb⟩ := whenRunning_next h
  have hmode : (encCapacityCheck s).mode = s.mode := (State.config_eq_iff.mp (encCapacityCheck_config s)).1
  exact encInv_of_encLookupStep hb (he.byteReady hp) (hmode.trans (he.selected hp))

theorem encInv_of_execEncEnd {s t : State} (h : execEncEnd s = .next t) (he : EncInv s.mode s.enc) :
    EncInv t.mode t.enc := by
  obtain ⟨hm, hp, -⟩ := whenRunning_next h
  have hstore := he.storeOk hp
  obtain ⟨hstart, hknown, hfull⟩ := he.matchOk (.inl hp)
  rcases encEnd_cases s hm hp with ⟨-, hs⟩ | ⟨-, hs⟩ | ⟨-, e, -, hs⟩ | ⟨-, e, -, hs⟩ <;>
    rw [hs] at h <;> cases h
  · exact .ofDone rfl (he.noFault hp) hstore ⟨hstart, hknown, hfull⟩
  · exact .ofDone rfl (he.noFault hp) hstore ⟨hstart, hknown, hfull⟩
  · exact .ofFault rfl nofun hstore
  · exact .ofFault rfl nofun hstore

/-! ### What a `DEC.CODE` leaves when it ends -/

/-- R92 step 3: `dict` is the store of `d` after the append of a step: one record, unless there is no
previous code. -/
def Dec.StoreAfter (d : Dec) (dict : List DecRecord) : Prop :=
  d.i = Config.clear ∧ dict = d.dict ∨ d.i ≠ Config.clear ∧ ∃ b, dict = decAppend d.i b d.dict

theorem Dec.StoreAfter.length {d : Dec} {dict : List DecRecord} (h : d.StoreAfter dict) :
    dict.length = d.size + (if d.i = Config.clear then 0 else 1) := by
  obtain ⟨hi, rfl⟩ | ⟨hi, b, rfl⟩ := h <;> simp [hi, Dec.size, decAppend]

/-- R106: the append keeps the store's form when the previous code is in the store, or the record is the
first learned one. -/
theorem Dec.StoreAfter.ok {d : Dec} {dict : List DecRecord} (h : d.StoreAfter dict) (hs : DecStoreOk d.dict)
    (hroom : d.size ≤ 65534) (hprev : d.i ≠ Config.clear → 257 ≤ d.size → d.i.toNat < d.size) :
    DecStoreOk dict := by
  obtain ⟨-, rfl⟩ | ⟨hi, b, rfl⟩ := h
  · exact hs
  · exact hs.append hi (hprev hi) hroom

/-- R97: a code that is present after the append is not `CLEAR`. -/
theorem Dec.StoreAfter.ne_clear {d : Dec} {dict : List DecRecord} {k : Code} (h : d.StoreAfter dict)
    (hroom : d.size ≤ 65534) (hlt : k.toNat < dict.length) : k ≠ Config.clear := by
  have hlen := h.length
  refine ne_clear_of_lt hlt ?_
  split_ifs at hlen <;> omega

theorem spells_of_rebuildString {d : List DecRecord} {n : Code} {t : List Byte}
    (h : rebuildString n d = .string t) : Spells d n t := by
  obtain ⟨u, hu, rfl, -⟩ := walkChain_string h
  simpa using hu

/-- R92 steps 4 and 5: the state of a `DEC.CODE k` that completes with the string `str` and the store
`dict`. -/
def State.decoded (s : State) (k : Code) (str : List Byte) (dict : List DecRecord) : State :=
  (s.wrote str).withDec { s.dec with
    str := str, dict := dict, outPos := s.dec.outPos + str.length, i := k, codeIdx := s.dec.codeIdx + 1 }

/-- R92, R98, R130: the two ways a `DEC.CODE k` past its capacity check ends: a fault, with or without the
append, or completion with the string its code spells in the store after the append. -/
inductive CodeEnds (k : Code) (s t : State) : Prop
  | faulted (hphase : t.dec.phase = .fault) (hfault : t.dec.fault ≠ .none)
      (hdict : t.dec.dict = s.dec.dict ∨ s.dec.StoreAfter t.dec.dict)
  | completed (str : List Byte) (dict : List DecRecord) (hafter : s.dec.StoreAfter dict)
      (hspells : Spells dict k str) (hlt : k.toNat < dict.length) (ht : t = s.decoded k str dict)

theorem CodeEnds.of_emitAndAdvance {k : Code} {s t : State} {str : List Byte} {dict : List DecRecord}
    (hafter : s.dec.StoreAfter dict) (hspells : Spells dict k str) (hlt : k.toNat < dict.length)
    (h : (emitAndAdvance k (s.withDec { s.dec with str := str, dict := dict })).finish = .next t) :
    CodeEnds k s t := by
  rcases emitAndAdvance_cases k (s.withDec { s.dec with str := str, dict := dict }) with
    he | ⟨e, n, -, -, he⟩ <;> rw [he] at h <;> cases h
  · exact .completed str dict hafter hspells hlt rfl
  · exact .faulted rfl nofun (.inr hafter)

theorem codeEnds_of_decodeCode {k : Code} {s t : State} (h : (decodeCode k s).finish = .next t) :
    CodeEnds k s t := by
  rcases decodeCode_cases k s with ⟨f, hf, he⟩ | ⟨hlt, hi, str, hr, he⟩ |
    ⟨hlt, hi, b, str, hr, he⟩ | ⟨hlt, hi, b, _, str, -, ⟨hr, he⟩ | ⟨x, -, he⟩⟩ | he <;>
    rw [he] at h
  · cases h
    refine .faulted rfl ?_ (.inl rfl)
    rcases hf with rfl | rfl | ⟨x, rfl⟩ <;> nofun
  · exact .of_emitAndAdvance (.inl ⟨hi, rfl⟩) (spells_of_rebuildString hr) hlt h
  · exact .of_emitAndAdvance (.inr ⟨hi, b, rfl⟩) ((spells_of_rebuildString hr).append _)
      (hlt.trans_le (by simp [decAppend, Dec.size])) h
  · exact .of_emitAndAdvance (.inr ⟨hi, b, rfl⟩) (spells_of_rebuildString hr)
      (by simp [decAppend, hlt, Dec.size]) h
  · cases h
    exact .faulted rfl nofun (.inr (.inr ⟨hi, b, rfl⟩))
  · cases h

/-- R77, R93: the capacity check of the decoder touches the store alone. -/
theorem decCapacityCheck_eq (s : State) : decCapacityCheck s =
    s.withDec { s.dec with dict := if s.dec.size = Config.capacity then decBase else s.dec.dict } := by
  by_cases h : s.dec.size = Config.capacity
  · rw [decCapacityCheck_full h, if_pos h]; rfl
  · rw [decCapacityCheck_below h, if_neg h]; rfl

/-- R93: the count after the capacity check. -/
theorem size_decCapacityCheck (s : State) :
    (decCapacityCheck s).dec.size = if s.dec.size = Config.capacity then 256 else s.dec.size := by
  rw [decCapacityCheck_eq]
  split_ifs <;> simp [Dec.size]

theorem size_decCapacityCheck_le {s : State} (h : s.dec.size ≤ 65535) :
    (decCapacityCheck s).dec.size ≤ 65534 := by
  rw [size_decCapacityCheck]
  split_ifs with hsize
  · decide
  · exact Nat.le_of_lt_succ (Nat.lt_of_le_of_ne h hsize)

/-- Settles O48: a step that completes is the second case of `CodeEnds`. -/
theorem completedDecCodeEmitsANonemptyString : Obligations.CompletedDecCodeEmitsANonemptyString := by
  intro i k s t hi hsize h hrun
  have hstep : decCodeStep k s = .next t := by
    rcases hi with rfl | rfl <;> exact (whenRunning_next h).2.2
  have hroom := size_decCapacityCheck_le (s := s.withDec { s.dec with k := k }) hsize
  cases codeEnds_of_decodeCode hstep with
  | faulted hphase => simp [hphase] at hrun
  | completed str dict hafter hspells hlt ht =>
    have hlen := hafter.length
    have hclear := hafter.ne_clear hroom hlt
    rw [size_decCapacityCheck, decCapacityCheck_eq] at hlen
    rw [decCapacityCheck_eq] at ht
    subst ht
    exact ⟨rfl, hspells.length_pos hclear, hspells.length_le, rfl, hlt, rfl, hlen⟩

/-! ### The operations of the decoder keep its invariant -/

theorem decInv_of_execDecStart {s t : State} (h : execDecStart s = .next t) : DecInv t.mode t.dec := by
  obtain ⟨hm, -, hb⟩ := whenStartable_next h
  cases hb
  exact .ofRun (selectedAgent_decoder.mp hm) rfl rfl .ofBase ⟨iff_of_true rfl rfl, (absurd rfl ·), rfl⟩

/-- R25, R92: what a `DEC.CODE` finds after its capacity check: the two wire bytes of its code are counted
and none is held, there is room for one record, and the previous code is in the store unless the store was
just reseeded. -/
structure CodeReady (d : Dec) : Prop where
  running : d.phase = .run
  noFault : d.fault = .none
  store : DecStoreOk d.dict
  room : d.size ≤ 65534
  prev : d.i ≠ Config.clear → 257 ≤ d.size → d.i.toNat < d.size
  counted : d.inPos = 2 * (d.codeIdx + 1)
  whole : d.holdValid = false

theorem decInv_of_decodeCode {k : Code} {s t : State} (ht : (decodeCode k s).finish = .next t)
    (h : CodeReady s.dec) (hm : s.mode = .decompress) : DecInv t.mode t.dec := by
  have hstore : ∀ {dict}, s.dec.StoreAfter dict → DecStoreOk dict := fun ha => ha.ok h.store h.room h.prev
  cases codeEnds_of_decodeCode ht with
  | faulted hphase hfault hdict =>
    exact .ofFault hphase hfault (hdict.elim (fun hd => hd ▸ h.store) hstore)
  | completed str dict hafter hspells hlt hs =>
    subst hs
    have hclear := hafter.ne_clear h.room hlt
    refine .ofRun hm h.running h.noFault (hstore hafter) ⟨?_, fun _ => hlt, ?_⟩
    · simp [State.decoded, hclear]
    · simp [State.decoded, h.counted, h.whole]

/-- R93, R106: the capacity check leaves a step ready: a previous code that `RESEED` took out of the store
is written to record 256 alone. -/
theorem DecInv.codeReady {m : Mode} {d : Dec} (h : DecInv m d) (hp : d.phase = .run) {k : Code} {s : State}
    (hs : s.dec = { d with k := k, inPos := 2 * (d.codeIdx + 1), holdValid := false }) :
    CodeReady (decCapacityCheck s).dec := by
  have hstore := h.storeOk hp
  have hroom := size_decCapacityCheck_le (s := s) (by rw [hs]; exact hstore.bound)
  by_cases hsize : s.dec.size = Config.capacity
  · rw [decCapacityCheck_full hsize] at hroom ⊢
    rw [reseedDecoder_dec, hs] at hroom ⊢
    exact ⟨hp, h.noFault hp, .ofBase, hroom, fun _ hge => absurd hge (by simp [Dec.size]), rfl, rfl⟩
  · rw [decCapacityCheck_below hsize, hs] at hroom ⊢
    exact ⟨hp, h.noFault hp, hstore, hroom, fun hi _ => (h.prevOk (.inl hp)).known hi, rfl, rfl⟩

/-- R92: a `DEC.CODE` keeps the invariant once the two wire bytes of its code are counted. -/
theorem decInv_of_decCodeStep {k : Code} {d : Dec} {s t : State} (ht : decCodeStep k s = .next t)
    (h : DecInv s.mode d) (hp : d.phase = .run)
    (hs : s.dec = { d with inPos := 2 * (d.codeIdx + 1), holdValid := false }) : DecInv t.mode t.dec := by
  refine decInv_of_decodeCode ht (h.codeReady hp (k := k) (by rw [State.withDec_dec, hs])) ?_
  rw [decCapacityCheck_eq]
  exact h.selected hp

/-- R91: `DEC.IN` holds the first byte of a code, or runs `DEC.CODE` on the code its byte completes. -/
theorem execDecIn_next {s t : State} {b : Byte} (h : execDecIn b s = .next t) :
    s.dec.phase = .run ∧
      (s.dec.holdValid = false ∧
          t = s.withDec { s.dec with inPos := s.dec.inPos + 1, hold := b, holdValid := true } ∨
        s.dec.holdValid = true ∧ decCodeStep (assembleCode s.byteOrder s.dec.hold b)
          (s.withDec { s.dec with inPos := s.dec.inPos + 1, holdValid := false }) = .next t) := by
  obtain ⟨-, hp, hb⟩ := whenRunning_next h
  refine ⟨hp, ?_⟩
  dsimp only at hb
  split at hb
  next hv => exact .inr ⟨hv, hb⟩
  next hv => exact .inl ⟨Bool.eq_false_of_not_eq_true hv, (Host.Outcome.next.inj hb).symm⟩

theorem decInv_of_execDecIn {s t : State} {b : Byte} (h : execDecIn b s = .next t)
    (hd : DecInv s.mode s.dec) : DecInv t.mode t.dec := by
  obtain ⟨hp, hin⟩ := execDecIn_next h
  obtain ⟨hstart, hknown, hcount⟩ := hd.prevOk (.inl hp)
  rcases hin with ⟨hv, rfl⟩ | ⟨hv, hb⟩
  · exact .ofRun (hd.selected hp) hp (hd.noFault hp) (hd.storeOk hp)
      ⟨hstart, hknown, by simpa [hv] using hcount⟩
  · have hn : s.dec.inPos + 1 = 2 * (s.dec.codeIdx + 1) := by rw [hcount, if_pos hv]; rfl
    exact decInv_of_decCodeStep hb hd hp (by rw [hn]; rfl)

theorem decInv_of_execDecEnd {s t : State} (h : execDecEnd s = .next t) (hd : DecInv s.mode s.dec) :
    DecInv t.mode t.dec := by
  obtain ⟨-, hp, hb⟩ := whenRunning_next h
  have hstore := hd.storeOk hp
  obtain ⟨hstart, hknown, hcount⟩ := hd.prevOk (.inl hp)
  split at hb <;> cases hb
  · exact .ofFault rfl nofun hstore
  · exact .ofDone rfl (hd.noFault hp) hstore ⟨hstart, hknown, hcount⟩

/-! ### What a step can be -/

/-- R55: the three `DEC.CODE` rows are one operation. -/
theorem exec_decodeDecCode (w : BitVec 16) (s : State) :
    exec (decodeDecCode w) s = whenRunning .decoder s (decCodeStep w) := by
  unfold decodeDecCode
  split_ifs with hbase hclear
  · rfl
  · subst hclear; rfl
  · rfl

/-- R38, R123: a read failure is raised in the machine that waits for a byte. -/
theorem readFailed_next {e : HostError} {s t : State} (h : readFailed e s = .next t) :
    (s.enc.phase = .run ∧ t = raise .encoder (.transport e .input) s) ∨
      (s.dec.phase = .run ∧ t = raise .decoder (.transport e .input) s) := by
  obtain ⟨-, hp, hb⟩ := whenRunning_next h
  cases hb
  cases hm : s.mode with
  | compress => exact .inl ⟨by simpa [hm, selectedAgent] using hp, by simp [selectedAgent]⟩
  | decompress => exact .inr ⟨by simpa [hm, selectedAgent] using hp, by simp [selectedAgent]⟩

/-- R42, R57, R110: everything a step that answers a next state can be: an external operation, or a read
failure, on the state with its event consumed. -/
inductive StepRuns (s t : State) : Prop
  | select (m : Mode) (rest : List HostEvent) (h : execSysSelect m (s.withInput rest) = .next t)
  | encStart (rest : List HostEvent) (h : execEncStart (s.withInput rest) = .next t)
  | encByte (c : Byte) (rest : List HostEvent) (h : execEncByte c (s.withInput rest) = .next t)
  | encEnd (rest : List HostEvent) (h : execEncEnd (s.withInput rest) = .next t)
  | decStart (rest : List HostEvent) (h : execDecStart (s.withInput rest) = .next t)
  | decIn (b : Byte) (rest : List HostEvent) (h : execDecIn b (s.withInput rest) = .next t)
  | decEnd (rest : List HostEvent) (h : execDecEnd (s.withInput rest) = .next t)
  | decCode (k : Code) (rest : List HostEvent) (hv : s.dec.holdValid = false)
      (h : whenRunning .decoder ((s.withInput rest).withDec { s.dec with inPos := s.dec.inPos + 2 })
        (decCodeStep k) = .next t)
  | readFailure (e : HostError) (rest : List HostEvent) (h : readFailed e (s.withInput rest) = .next t)

theorem stepRuns_of_transaction {s t : State} {w : BitVec 10} {rest : List HostEvent}
    (h : exec (decodeT10 s.mode w) (s.withInput rest) = .next t) : StepRuns s t := by
  unfold decodeT10 at h
  cases hm : s.mode <;> simp only [hm] at h <;> split_ifs at h
  · exact .encStart rest h
  · exact .encByte _ rest h
  · exact .encEnd rest h
  · cases h
  · exact .decStart rest h
  · exact .decIn _ rest h
  · exact .decEnd rest h
  · cases h

theorem stepRuns_of_step {s t : State} (h : step s = .next t) : StepRuns s t := by
  unfold step fetch at h
  match hin : s.input with
  | [] => simp only [hin] at h; cases h
  | .select w :: rest =>
    simp only [hin, decodeMode1] at h
    split_ifs at h <;> exact .select _ rest h
  | .transaction w :: rest =>
    simp only [hin] at h
    exact stepRuns_of_transaction h
  | .code w :: rest =>
    simp only [hin] at h
    cases hv : s.dec.holdValid with
    | true => simp [hv] at h
    | false =>
      rw [if_neg (by simp [hv])] at h
      exact .decCode w rest hv ((exec_decodeDecCode w _).symm.trans h)
  | .readFailure e :: rest =>
    simp only [hin] at h
    exact .readFailure e rest h

/-! ### An operation of one machine leaves the other's set and `MODE` -/

/-- R115: what commutes with every change of the decoder set leaves it. -/
theorem exec_encoder_frame {i : Instr} {s t : State} (hi : isEncoderOp i = true) (h : exec i s = .next t) :
    t.dec = s.dec ∧ t.mode = s.mode := by
  have hmap := exec_withDec s.dec s hi
  rw [show s.withDec s.dec = s from rfl, h] at hmap
  have hconfig := exec_config (by rintro m rfl; simp [isEncoderOp] at hi) h
  have ht : t = t.withDec s.dec := Host.Outcome.next.inj hmap
  exact ⟨by rw [ht, State.withDec_dec], (State.config_eq_iff.mp hconfig).1⟩

/-- R115: what commutes with every change of the encoder set leaves it. -/
theorem exec_decoder_frame {i : Instr} {s t : State} (hi : isDecoderOp i = true) (h : exec i s = .next t) :
    t.enc = s.enc ∧ t.mode = s.mode := by
  have hmap := exec_withEnc s.enc s hi
  rw [show s.withEnc s.enc = s from rfl, h] at hmap
  have hconfig := exec_config (by rintro m rfl; simp [isDecoderOp] at hi) h
  have ht : t = t.withEnc s.enc := Host.Outcome.next.inj hmap
  exact ⟨by rw [ht, State.withEnc_enc], (State.config_eq_iff.mp hconfig).1⟩

theorem inv_of_encoderOp {i : Instr} {s t : State} (hi : isEncoderOp i = true) (h : exec i s = .next t)
    (hd : DecInv s.mode s.dec) (he : EncInv t.mode t.enc) : Inv t := by
  obtain ⟨hdec, hmode⟩ := exec_encoder_frame hi h
  exact inv_iff.mpr ⟨he, by rwa [hdec, hmode]⟩

theorem inv_of_decoderOp {i : Instr} {s t : State} (hi : isDecoderOp i = true) (h : exec i s = .next t)
    (he : EncInv s.mode s.enc) (hd : DecInv t.mode t.dec) : Inv t := by
  obtain ⟨henc, hmode⟩ := exec_decoder_frame hi h
  exact inv_iff.mpr ⟨by rwa [henc, hmode], hd⟩

/-- Settles O50: each operation keeps its own machine's invariant and leaves the other machine. -/
theorem everyStepKeepsTheInvariant : Obligations.EveryStepKeepsTheInvariant := by
  intro s t hinv hstep
  obtain ⟨he, hd⟩ := inv_iff.mp hinv
  cases stepRuns_of_step hstep with
  | select m rest h =>
    obtain ⟨hep, hdp, rfl⟩ := execSysSelect_next h
    exact inv_iff.mpr ⟨he.withMode hep m, hd.withMode hdp m⟩
  | encStart rest h => exact inv_of_encoderOp (i := .encStart) rfl h hd (encInv_of_execEncStart h)
  | encByte c rest h => exact inv_of_encoderOp (i := .encByte c) rfl h hd (encInv_of_execEncByte h he)
  | encEnd rest h => exact inv_of_encoderOp (i := .encEnd) rfl h hd (encInv_of_execEncEnd h he)
  | decStart rest h => exact inv_of_decoderOp (i := .decStart) rfl h he (decInv_of_execDecStart h)
  | decIn b rest h => exact inv_of_decoderOp (i := .decIn b) rfl h he (decInv_of_execDecIn h hd)
  | decEnd rest h => exact inv_of_decoderOp (i := .decEnd) rfl h he (decInv_of_execDecEnd h hd)
  | decCode k rest hv h =>
    obtain ⟨-, hp, hb⟩ := whenRunning_next h
    have hcount : s.dec.inPos = 2 * s.dec.codeIdx := by simpa [hv] using (hd.prevOk (.inl hp)).count
    refine inv_of_decoderOp (i := .decCodeLearned k) rfl h he (decInv_of_decCodeStep hb hd hp ?_)
    simp [hcount, hv, Nat.mul_add]
  | readFailure e rest h =>
    rcases readFailed_next h with ⟨hp, rfl⟩ | ⟨hp, rfl⟩
    · exact inv_iff.mpr ⟨.ofFault rfl nofun (he.storeOk hp), hd⟩
    · exact inv_iff.mpr ⟨he, .ofFault rfl nofun (hd.storeOk hp)⟩

/-! ### A recorded fault (R24, R130, R132) -/

/-- R112: outside `RUN` a step leaves the encoder set, or it is `ENC.START`. -/
theorem step_enc_of_not_run {s t : State} (hp : s.enc.phase ≠ .run) (hstep : step s = .next t) :
    t.enc = s.enc ∨ (t.enc.fault = .none ∧ t.enc.phase = .run) := by
  cases stepRuns_of_step hstep with
  | select m rest h => obtain ⟨-, -, rfl⟩ := execSysSelect_next h; exact .inl rfl
  | encStart rest h =>
    obtain ⟨-, -, hb⟩ := whenStartable_next h
    cases hb
    exact .inr ⟨rfl, rfl⟩
  | encByte c rest h | encEnd rest h => exact absurd (whenRunning_next h).2.1 hp
  | decStart rest h => exact .inl (exec_decoder_frame (i := .decStart) rfl h).1
  | decIn b rest h => exact .inl (exec_decoder_frame (i := .decIn b) rfl h).1
  | decEnd rest h => exact .inl (exec_decoder_frame (i := .decEnd) rfl h).1
  | decCode k rest hv h => exact .inl (exec_decoder_frame (i := .decCodeLearned k) rfl h).1
  | readFailure e rest h =>
    rcases readFailed_next h with ⟨hrun, -⟩ | ⟨-, rfl⟩
    · exact absurd hrun hp
    · exact .inl rfl

/-- R112: outside `RUN` a step leaves the decoder set, or it is `DEC.START`. -/
theorem step_dec_of_not_run {s t : State} (hp : s.dec.phase ≠ .run) (hstep : step s = .next t) :
    t.dec = s.dec ∨ (t.dec.fault = .none ∧ t.dec.phase = .run) := by
  cases stepRuns_of_step hstep with
  | select m rest h => obtain ⟨-, -, rfl⟩ := execSysSelect_next h; exact .inl rfl
  | decStart rest h =>
    obtain ⟨-, -, hb⟩ := whenStartable_next h
    cases hb
    exact .inr ⟨rfl, rfl⟩
  | decIn b rest h | decEnd rest h | decCode k rest hv h => exact absurd (whenRunning_next h).2.1 hp
  | encStart rest h => exact .inl (exec_encoder_frame (i := .encStart) rfl h).1
  | encByte c rest h => exact .inl (exec_encoder_frame (i := .encByte c) rfl h).1
  | encEnd rest h => exact .inl (exec_encoder_frame (i := .encEnd) rfl h).1
  | readFailure e rest h =>
    rcases readFailed_next h with ⟨-, rfl⟩ | ⟨hrun, -⟩
    · exact .inl rfl
    · exact absurd hrun hp

/-- Settles O15: a machine with a recorded fault is in `FAULT`, so no step but its `START` writes its set. -/
theorem faultIsKeptUntilStart : Obligations.FaultIsKeptUntilStart := by
  intro s t hinv hstep
  refine ⟨fun hf => ?_, fun hf => ?_⟩
  · exact (step_enc_of_not_run (by simp [hinv.encFault.mpr hf]) hstep).imp_left (congrArg Enc.fault)
  · exact (step_dec_of_not_run (by simp [hinv.decFault.mpr hf]) hstep).imp_left (congrArg Dec.fault)

end Sys2Proof.Machine

/-! ## Memory and channels (20_memory.md): the next event, the output channel, the two stores

Proofs of the statements on 20_memory.md, with the lemmas they turn on. -/

namespace Sys2Proof.Machine

/-! ### The next event (R38, R41, R42, R58) -/

theorem fetch_nil {s : State} (hin : s.input = []) : fetch s = .nothing .noEvent := by
  simp [fetch, hin]

theorem fetch_select {s : State} {w : BitVec 1} {rest : List HostEvent} (hin : s.input = .select w :: rest) :
    fetch s = .instr (decodeMode1 w) (s.withInput rest) := by
  simp [fetch, hin]

theorem fetch_transaction {s : State} {w : BitVec 10} {rest : List HostEvent}
    (hin : s.input = .transaction w :: rest) :
    fetch s = .instr (decodeT10 s.mode w) (s.withInput rest) := by
  simp [fetch, hin]

/-- R63: between codes, a whole code is taken and counted as its two wire bytes. -/
theorem fetch_code {s : State} {w : BitVec 16} {rest : List HostEvent} (hin : s.input = .code w :: rest)
    (hv : s.dec.holdValid = false) :
    fetch s = .instr (decodeDecCode w)
      ((s.withInput rest).withDec { s.dec with inPos := s.dec.inPos + 2 }) := by
  simp [fetch, hin, hv]

theorem fetch_code_misaligned {s : State} {w : BitVec 16} {rest : List HostEvent}
    (hin : s.input = .code w :: rest) (hv : s.dec.holdValid = true) :
    fetch s = .nothing .misalignedCode := by
  simp [fetch, hin, hv]

theorem fetch_readFailure {s : State} {e : HostError} {rest : List HostEvent}
    (hin : s.input = .readFailure e :: rest) : fetch s = .failed e (s.withInput rest) := by
  simp [fetch, hin]

theorem step_of_fetch_instr {s u : State} {i : Instr} (h : fetch s = .instr i u) : step s = exec i u := by
  simp only [step, h]

theorem step_of_fetch_failed {s u : State} {e : HostError} (h : fetch s = .failed e u) :
    step s = readFailed e u := by
  simp only [step, h]

theorem step_of_fetch_nothing {s : State} {r : Refusal} (h : fetch s = .nothing r) :
    step s = .refused r := by
  simp only [step, h]

/-- Settles O1: each of the three kinds of event is taken with the operation its word decodes to. -/
theorem stepRunsTheDecodedOperation : Obligations.StepRunsTheDecodedOperation := by
  refine fun s rest i => ⟨fun w hin hd => ?_, fun w hin hd => ?_, fun w hin hv hd => ?_⟩ <;> cases hd
  · exact step_of_fetch_instr (fetch_select hin)
  · exact step_of_fetch_instr (fetch_transaction hin)
  · exact step_of_fetch_instr (fetch_code hin hv)

/-- Settles O3: neither case takes an event. -/
theorem waitingCoreHasNoStep : Obligations.WaitingCoreHasNoStep := fun _ =>
  ⟨fun hin => step_of_fetch_nothing (fetch_nil hin),
    fun _ _ hin hv => step_of_fetch_nothing (fetch_code_misaligned hin hv)⟩

/-- R38, R123: in `RUN` the selected machine raises `Transport(input)`. -/
theorem step_readFailure {s : State} {a : Agent} {e : HostError} {rest : List HostEvent}
    (hin : s.input = .readFailure e :: rest) (hm : selectedAgent s.mode = a) (hp : s.phaseOf a = .run) :
    step s = .next (raise a (.transport e .input) (s.withInput rest)) := by
  subst hm
  exact (step_of_fetch_failed (fetch_readFailure hin)).trans
    (whenRunning_eq (s := s.withInput rest) _ rfl hp)

/-- Log 11: outside `RUN` of the selected machine a read failure has no step. -/
theorem step_readFailure_refused {s : State} {a : Agent} {e : HostError} {rest : List HostEvent}
    (hin : s.input = .readFailure e :: rest) (hm : selectedAgent s.mode = a) (hp : s.phaseOf a ≠ .run) :
    IsRefused (step s) := by
  subst hm
  rw [step_of_fetch_failed (fetch_readFailure hin)]
  exact whenRunning_refused (s := s.withInput rest) _ (.inr hp)

/-- Settles O2, by the phase of the machine `MODE` selects. -/
theorem readFailureRaisesTransport : Obligations.ReadFailureRaisesTransport := fun _ _ _ hin =>
  ⟨fun hm hp => step_readFailure hin (selectedAgent_encoder.mpr hm) hp,
    fun hm hp => step_readFailure hin (selectedAgent_decoder.mpr hm) hp,
    fun hm hp => step_readFailure_refused hin (selectedAgent_encoder.mpr hm) hp,
    fun hm hp => step_readFailure_refused hin (selectedAgent_decoder.mpr hm) hp⟩

/-! ### A store with at most one entry added (R32, R36, R44) -/

/-- R32, R36: `d'` is the store `d`, or `d` with one entry added at its end, as `encInsert` and `decAppend`
add one. -/
def AddsAtMostOne {α : Type} (d d' : List α) : Prop := d' = d ∨ ∃ e, d' = d ++ [e]

theorem AddsAtMostOne.length_le {α : Type} {d d' : List α} (h : AddsAtMostOne d d') :
    d'.length ≤ d.length + 1 := by
  obtain rfl | ⟨e, rfl⟩ := h <;> simp

/-- R32: every key in use keeps its value. -/
theorem AddsAtMostOne.encLookup {d d' : List EncEntry} (h : AddsAtMostOne d d') {p v : Code} {b : Byte}
    (hl : encLookup p b d = some v) : encLookup p b d' = some v := by
  obtain rfl | ⟨f, rfl⟩ := h
  · exact hl
  · obtain ⟨e, he, rfl⟩ := Option.map_eq_some_iff.mp hl
    rw [Machine.encLookup, List.find?_append, he]
    rfl

/-- R36: every record keeps its index. -/
theorem AddsAtMostOne.getElem? {α : Type} {d d' : List α} (h : AddsAtMostOne d d') {n : Nat} {r : α}
    (hr : d[n]? = some r) : d'[n]? = some r := by
  obtain rfl | ⟨e, rfl⟩ := h
  · exact hr
  · rw [List.getElem?_append_left (List.getElem?_eq_some_iff.mp hr).1, hr]

theorem Dec.StoreAfter.addsAtMostOne {d : Dec} {dict : List DecRecord} (h : d.StoreAfter dict) :
    AddsAtMostOne d.dict dict := by
  obtain ⟨-, rfl⟩ | ⟨-, b, rfl⟩ := h
  · exact .inl rfl
  · exact .inr ⟨_, rfl⟩

/-! ### What `ENC.BYTE` does to the store and the output (R32, R39, R83) -/

@[simp] theorem State.missInserted_output (s : State) (c : Byte) : (s.missInserted c).output = s.output := rfl
@[simp] theorem State.wroteUntilRefused_output (s : State) (bs : List Byte) :
    (s.wroteUntilRefused bs).output = s.output ++ bs := rfl
@[simp] theorem encCapacityCheck_output (s : State) : (encCapacityCheck s).output = s.output := by
  unfold encCapacityCheck; split <;> rfl
@[simp] theorem decCapacityCheck_output (s : State) : (decCapacityCheck s).output = s.output := by
  rw [decCapacityCheck_eq, State.withDec_output]

/-- R83, R84: after its capacity check `ENC.BYTE` inserts at most one pair and only writes bytes. -/
theorem encLookupStep_appends {s t : State} {c : Byte} (h : (encLookupStep c s).finish = .next t) :
    AddsAtMostOne s.enc.dict t.enc.dict ∧ s.output <+: t.output := by
  cases hl : encLookup s.enc.i c s.enc.dict with
  | some r =>
    rw [encLookupStep_hit hl] at h
    cases h
    exact ⟨.inl rfl, List.prefix_refl _⟩
  | none =>
    rw [encLookupStep_miss hl] at h
    rcases encMiss_cases c s with ⟨-, he⟩ | ⟨-, he⟩ | ⟨-, e, -, he⟩ | ⟨-, e, -, he⟩ <;>
      (rw [he] at h; cases h; exact ⟨.inr ⟨_, rfl⟩, by simp⟩)

/-! ### Every operation only appends to the output (R39, R114, R129) -/

theorem execEncByte_output {s t : State} {c : Byte} (h : execEncByte c s = .next t) :
    s.output <+: t.output := by
  obtain ⟨-, -, hb⟩ := whenRunning_next h
  simpa using (encLookupStep_appends hb).2

theorem execEncEnd_output {s t : State} (h : execEncEnd s = .next t) : s.output <+: t.output := by
  obtain ⟨hm, hp, -⟩ := whenRunning_next h
  rcases encEnd_cases s hm hp with ⟨-, he⟩ | ⟨-, he⟩ | ⟨-, e, -, he⟩ | ⟨-, e, -, he⟩ <;>
    (rw [he] at h; cases h; simp)

theorem emitAndAdvance_output {k : Code} {s t : State} (h : (emitAndAdvance k s).finish = .next t) :
    s.output <+: t.output := by
  rcases emitAndAdvance_cases k s with he | ⟨e, n, -, -, he⟩ <;> (rw [he] at h; cases h; simp)

theorem decodeCode_output {k : Code} {s t : State} (h : (decodeCode k s).finish = .next t) :
    s.output <+: t.output := by
  rcases decodeCode_cases k s with ⟨f, -, he⟩ | ⟨-, -, _, -, he⟩ | ⟨-, -, b, _, -, he⟩ |
      ⟨-, -, b, _, u, -, ⟨-, he⟩ | ⟨x, -, he⟩⟩ | he <;> rw [he] at h
  case inr.inl | inr.inr.inl | inr.inr.inr.inl.inl => simpa using emitAndAdvance_output h
  all_goals cases h
  all_goals simp

theorem decCodeStep_output {k : Code} {s t : State} (h : decCodeStep k s = .next t) :
    s.output <+: t.output := by
  simpa using decodeCode_output h

theorem execDecIn_output {s t : State} {b : Byte} (h : execDecIn b s = .next t) :
    s.output <+: t.output := by
  rcases (execDecIn_next h).2 with ⟨-, rfl⟩ | ⟨-, hb⟩
  · exact List.prefix_refl _
  · simpa using decCodeStep_output hb

theorem execDecEnd_output {s t : State} (h : execDecEnd s = .next t) : s.output <+: t.output := by
  obtain ⟨-, -, hb⟩ := whenRunning_next h
  split at hb <;> (cases hb; simp)

theorem readFailed_output {e : HostError} {s t : State} (h : readFailed e s = .next t) :
    s.output <+: t.output := by
  rcases readFailed_next h with ⟨-, rfl⟩ | ⟨-, rfl⟩ <;> simp

theorem step_output {s t : State} (hstep : step s = .next t) : s.output <+: t.output := by
  cases stepRuns_of_step hstep with
  | select m rest h => obtain ⟨-, -, rfl⟩ := execSysSelect_next h; exact List.prefix_refl _
  | encStart rest h | decStart rest h =>
    obtain ⟨-, -, hb⟩ := whenStartable_next h
    cases hb
    exact List.prefix_refl _
  | encByte c rest h => exact execEncByte_output (s := s.withInput rest) h
  | encEnd rest h => exact execEncEnd_output (s := s.withInput rest) h
  | decIn b rest h => exact execDecIn_output (s := s.withInput rest) h
  | decEnd rest h => exact execDecEnd_output (s := s.withInput rest) h
  | decCode k rest hv h => simpa using decCodeStep_output (whenRunning_next h).2.2
  | readFailure e rest h => exact readFailed_output (s := s.withInput rest) h

/-- Settles O17: every operation, and a read failure, only appends to the output. -/
theorem outputIsNeverTakenBack : Obligations.OutputIsNeverTakenBack := by
  intro s t hstep
  obtain ⟨bs, hbs⟩ := step_output hstep
  exact ⟨bs, hbs.symm⟩

/-! ### Below capacity a step adds at most one entry to a store (R32, R36, R44, R78) -/

theorem execEncByte_store {s t : State} {c : Byte} (h : execEncByte c s = .next t)
    (hsize : s.enc.size ≠ Config.capacity) : AddsAtMostOne s.enc.dict t.enc.dict := by
  obtain ⟨-, -, hb⟩ := whenRunning_next h
  rw [encCapacityCheck_below hsize] at hb
  exact (encLookupStep_appends hb).1

theorem execEncEnd_dict {s t : State} (h : execEncEnd s = .next t) : t.enc.dict = s.enc.dict := by
  obtain ⟨hm, hp, -⟩ := whenRunning_next h
  rcases encEnd_cases s hm hp with ⟨-, he⟩ | ⟨-, he⟩ | ⟨-, e, -, he⟩ | ⟨-, e, -, he⟩ <;>
    (rw [he] at h; cases h; rfl)

/-- R78: `ENC.START` is refused in `RUN` and no capacity reset is due, so `ENC.BYTE` alone writes the
encoder store. -/
theorem step_encStore {s t : State} (hp : s.enc.phase = .run) (hsize : s.enc.size ≠ Config.capacity)
    (hstep : step s = .next t) : AddsAtMostOne s.enc.dict t.enc.dict := by
  have same : t.enc = s.enc → AddsAtMostOne s.enc.dict t.enc.dict := fun he => .inl (congrArg Enc.dict he)
  cases stepRuns_of_step hstep with
  | encByte c rest h => exact execEncByte_store (s := s.withInput rest) h hsize
  | encEnd rest h => exact .inl (execEncEnd_dict (s := s.withInput rest) h)
  | encStart rest h => exact absurd hp (whenStartable_next h).2.1
  | select m rest h => obtain ⟨-, -, rfl⟩ := execSysSelect_next h; exact .inl rfl
  | readFailure e rest h => rcases readFailed_next h with ⟨-, rfl⟩ | ⟨-, rfl⟩ <;> exact .inl rfl
  | decStart rest h => exact same (exec_decoder_frame (i := .decStart) rfl h).1
  | decIn b rest h => exact same (exec_decoder_frame (i := .decIn b) rfl h).1
  | decEnd rest h => exact same (exec_decoder_frame (i := .decEnd) rfl h).1
  | decCode k rest hv h => exact same (exec_decoder_frame (i := .decCodeLearned k) rfl h).1

theorem CodeEnds.addsAtMostOne {k : Code} {s t : State} (h : CodeEnds k s t) :
    AddsAtMostOne s.dec.dict t.dec.dict := by
  cases h with
  | faulted _ _ hdict => exact hdict.elim .inl Dec.StoreAfter.addsAtMostOne
  | completed str dict hafter _ _ ht => subst ht; exact hafter.addsAtMostOne

theorem decCodeStep_store {k : Code} {s t : State} (h : decCodeStep k s = .next t)
    (hsize : s.dec.size ≠ Config.capacity) : AddsAtMostOne s.dec.dict t.dec.dict := by
  have hends := codeEnds_of_decodeCode h
  rw [decCapacityCheck_below (s := s.withDec { s.dec with k := k }) hsize] at hends
  exact hends.addsAtMostOne

theorem execDecIn_store {s t : State} {b : Byte} (h : execDecIn b s = .next t)
    (hsize : s.dec.size ≠ Config.capacity) : AddsAtMostOne s.dec.dict t.dec.dict := by
  rcases (execDecIn_next h).2 with ⟨-, rfl⟩ | ⟨-, hb⟩
  · exact .inl rfl
  · exact (decCodeStep_store hb hsize :)

theorem execDecEnd_dict {s t : State} (h : execDecEnd s = .next t) : t.dec.dict = s.dec.dict := by
  obtain ⟨-, -, hb⟩ := whenRunning_next h
  split at hb <;> (cases hb; rfl)

/-- R78: `DEC.START` is refused in `RUN` and no capacity reset is due, so `DEC.CODE` alone, by itself or
inside `DEC.IN`, writes the decoder store. -/
theorem step_decStore {s t : State} (hp : s.dec.phase = .run) (hsize : s.dec.size ≠ Config.capacity)
    (hstep : step s = .next t) : AddsAtMostOne s.dec.dict t.dec.dict := by
  have same : t.dec = s.dec → AddsAtMostOne s.dec.dict t.dec.dict := fun hd => .inl (congrArg Dec.dict hd)
  cases stepRuns_of_step hstep with
  | decIn b rest h => exact execDecIn_store (s := s.withInput rest) h hsize
  | decCode k rest hv h => exact (decCodeStep_store (whenRunning_next h).2.2 hsize :)
  | decEnd rest h => exact .inl (execDecEnd_dict (s := s.withInput rest) h)
  | decStart rest h => exact absurd hp (whenStartable_next h).2.1
  | select m rest h => obtain ⟨-, -, rfl⟩ := execSysSelect_next h; exact .inl rfl
  | readFailure e rest h => rcases readFailed_next h with ⟨-, rfl⟩ | ⟨-, rfl⟩ <;> exact .inl rfl
  | encStart rest h => exact same (exec_encoder_frame (i := .encStart) rfl h).1
  | encByte c rest h => exact same (exec_encoder_frame (i := .encByte c) rfl h).1
  | encEnd rest h => exact same (exec_encoder_frame (i := .encEnd) rfl h).1

/-- Settles O30: an entry that is added changes no entry that is there. -/
theorem storesAreAppendOnlyBetweenResets : Obligations.StoresAreAppendOnlyBetweenResets := by
  intro s t hstep
  refine ⟨fun hp hsize => ?_, fun hp hsize => ?_⟩
  · have hgrows := step_encStore hp hsize hstep
    exact ⟨fun _ _ _ => hgrows.encLookup, hgrows.length_le⟩
  · have hgrows := step_decStore hp hsize hstep
    exact ⟨fun _ _ => hgrows.getElem?, hgrows.length_le⟩

end Sys2Proof.Machine

/-! ## Encodings (30_encoding.md): wire bytes and code classes, words and operations

Proofs of the statements on 30_encoding.md, with the lemmas they turn on. -/

namespace Sys2Proof.Machine

/-! ### Codes and their wire bytes (R53, R54, R69) -/

@[simp] theorem toNat_zext16 (b : Byte) : (zext16 b).toNat = b.toNat := by
  simp [zext16, Nat.mod_eq_of_lt (b.isLt.trans (by decide : 256 < 65536))]

theorem toNat_codeLow (v : Code) : (codeLow v).toNat = v.toNat % 256 := by
  simp [codeLow]

theorem toNat_codeHigh (v : Code) : (codeHigh v).toNat = v.toNat / 256 := by
  simp [codeHigh, Nat.shiftRight_eq_div_pow]
  omega

/-- R53: the `LE` sum fits a code. -/
theorem toNat_assembleCode_le (b0 b1 : Byte) : (assembleCode .le b0 b1).toNat = b0.toNat + 256 * b1.toNat := by
  simp [assembleCode]
  omega

/-- R53: the `BE` sum fits a code. -/
theorem toNat_assembleCode_be (b0 b1 : Byte) : (assembleCode .be b0 b1).toNat = 256 * b0.toNat + b1.toNat := by
  simp [assembleCode]
  omega

/-- R53: a code is assembled from its wire bytes. -/
theorem assembleCode_wire (o : ByteOrder) (v : Code) : assembleCode o (wireFirst o v) (wireSecond o v) = v := by
  apply BitVec.eq_of_toNat_eq
  cases o with
  | le =>
    rw [toNat_assembleCode_le, wireFirst, wireSecond, toNat_codeLow, toNat_codeHigh, Nat.mod_add_div]
  | be =>
    rw [toNat_assembleCode_be, wireFirst, wireSecond, toNat_codeLow, toNat_codeHigh, Nat.div_add_mod]

/-- R53: the first wire byte of an assembled code is the first byte. -/
theorem wireFirst_assembleCode (o : ByteOrder) (b0 b1 : Byte) : wireFirst o (assembleCode o b0 b1) = b0 := by
  apply BitVec.eq_of_toNat_eq
  cases o with
  | le => rw [wireFirst, toNat_codeLow, toNat_assembleCode_le]; omega
  | be => rw [wireFirst, toNat_codeHigh, toNat_assembleCode_be]; omega

/-- R53: the second wire byte of an assembled code is the second byte. -/
theorem wireSecond_assembleCode (o : ByteOrder) (b0 b1 : Byte) : wireSecond o (assembleCode o b0 b1) = b1 := by
  apply BitVec.eq_of_toNat_eq
  cases o with
  | le => rw [wireSecond, toNat_codeHigh, toNat_assembleCode_le]; omega
  | be => rw [wireSecond, toNat_codeLow, toNat_assembleCode_be]; omega

/-- Settles O7, by the two sums and the two wire bytes as numbers. -/
theorem codeAssemblyInvertsSerialisation : Obligations.CodeAssemblyInvertsSerialisation := fun o b0 b1 v =>
  ⟨toNat_assembleCode_le b0 b1, toNat_assembleCode_be b0 b1, assembleCode_wire o v,
    wireFirst_assembleCode o b0 b1, wireSecond_assembleCode o b0 b1⟩

/-! ### The classes of a code (R55, R56) -/

/-- R55: the three ranges exclude one another, so each class is one of them. -/
theorem staticClass_iff (k : Code) :
    (staticClass k = .base ↔ k.toNat < 256) ∧
      (staticClass k = .learned ↔ 256 ≤ k.toNat ∧ k.toNat ≤ 65534) ∧
      (staticClass k = .clear ↔ k.toNat = 65535) := by
  unfold staticClass
  split_ifs with hbase hclear <;> simp only [Config.alphabet] at hbase
  · simp; omega
  · simp [hclear]
  · have hne : k.toNat ≠ 65535 := fun h => hclear (BitVec.eq_of_toNat_eq h)
    simp; omega

/-- R56: the three comparisons exclude one another, so each class is one of them. -/
theorem dynamicClass_iff (k : Code) (n : Nat) :
    (dynamicClass k n = .known ↔ k.toNat < n) ∧ (dynamicClass k n = .self ↔ k.toNat = n) ∧
      (dynamicClass k n = .invalid ↔ n < k.toNat) := by
  rcases Nat.lt_trichotomy k.toNat n with h | h | h
  · simp [dynamicClass_known h]; omega
  · simp [dynamicClass_self h]; omega
  · simp [dynamicClass_invalid h]; omega

/-- Settles O8, by the bounds of each class. -/
theorem codeClassesPartitionTheCodeSpace : Obligations.CodeClassesPartitionTheCodeSpace := by
  intro k size
  obtain ⟨hbase, hlearned, hclear⟩ := staticClass_iff k
  obtain ⟨hknown, hself, hinvalid⟩ := dynamicClass_iff k size
  refine ⟨hbase.trans Nat.lt_succ_iff, hlearned, hclear, hknown, hself, hinvalid, fun hlow hhigh => ⟨?_, ?_⟩⟩
  · rw [hbase, hknown]; omega
  · rw [hclear, hinvalid]; omega

/-! ### Words and operations (R55, R57, R58) -/

@[simp] theorem t10Kind_t10Word (kind : BitVec 2) (data : Byte) : t10Kind (t10Word kind data) = kind :=
  BitVec.extractLsb'_append_eq_left

@[simp] theorem t10Data_t10Word (kind : BitVec 2) (data : Byte) : t10Data (t10Word kind data) = data :=
  BitVec.extractLsb'_append_eq_right

/-! R58: the operation of each `T10` kind, whatever the data of `START`, `END` and the reserved kind. -/

section T10
variable (m : Mode) (data : Byte)

@[simp] theorem decodeT10_encStart : decodeT10 .compress (t10Word 0b00#2 data) = .encStart := by
  simp [decodeT10]
@[simp] theorem decodeT10_encByte : decodeT10 .compress (t10Word 0b01#2 data) = .encByte data := by
  simp [decodeT10]
@[simp] theorem decodeT10_encEnd : decodeT10 .compress (t10Word 0b10#2 data) = .encEnd := by
  simp [decodeT10]
@[simp] theorem decodeT10_decStart : decodeT10 .decompress (t10Word 0b00#2 data) = .decStart := by
  simp [decodeT10]
@[simp] theorem decodeT10_decIn : decodeT10 .decompress (t10Word 0b01#2 data) = .decIn data := by
  simp [decodeT10]
@[simp] theorem decodeT10_decEnd : decodeT10 .decompress (t10Word 0b10#2 data) = .decEnd := by
  simp [decodeT10]
@[simp] theorem decodeT10_reserved : decodeT10 m (t10Word 0b11#2 data) = .t10Reserved := by
  simp [decodeT10]

end T10

/-- R55: the row `DEC.CODE.BASE` is told by the high byte alone. -/
theorem codeHigh_eq_zero_iff (v : Code) : codeHigh v = 0#8 ↔ v.toNat < 256 := by
  rw [← BitVec.toNat_inj, toNat_codeHigh]
  simp

/-- R55, R92: a code of the base class is read as the row `DEC.CODE.BASE`. -/
theorem decodeDecCode_base {k : Code} (h : k.toNat < 256) : decodeDecCode k = .decCodeBase k :=
  if_pos ((codeHigh_eq_zero_iff k).mpr h)

/-- R55, R92: a code of the learned class is read as the row `DEC.CODE.LEARNED`. -/
theorem decodeDecCode_learned {k : Code} (hlow : 256 ≤ k.toNat) (hhigh : k.toNat ≤ 65534) :
    decodeDecCode k = .decCodeLearned k := by
  have hbase : codeHigh k ≠ 0#8 := by rw [Ne, codeHigh_eq_zero_iff]; omega
  have hclear : k ≠ 0xFFFF#16 := by rintro rfl; simp at hhigh
  exact (if_neg hbase).trans (if_neg hclear)

/-- Settles O5: each operation's word has its format, its kind or its class of code. -/
theorem decodeInvertsEncode : Obligations.DecodeInvertsEncode := by
  intro i hwf
  cases i with
  | sysSelect m => cases m <;> rfl
  | encStart | encByte _ | encEnd | decStart | decIn _ | decEnd | t10Reserved => simp [encode, decode]
  | decCodeBase k =>
    have hk : k.toNat < 256 := by simpa [WellFormed] using hwf
    exact congrArg Except.ok (decodeDecCode_base hk)
  | decCodeLearned k =>
    obtain ⟨hlow, hhigh⟩ : 256 ≤ k.toNat ∧ k.toNat ≤ 65534 := by simpa [WellFormed] using hwf
    exact congrArg Except.ok (decodeDecCode_learned hlow hhigh)
  | decCodeClear | reseedEnc | reseedDec | rebuild _ | outCode _ => rfl

theorem wellFormed_decodeMode1 (w : BitVec 1) : WellFormed (decodeMode1 w) = true := by
  unfold decodeMode1
  split <;> rfl

theorem wellFormed_decodeT10 (m : Mode) (w : BitVec 10) : WellFormed (decodeT10 m w) = true := by
  unfold decodeT10
  cases m <;> split_ifs <;> rfl

/-- R55: the row a code is decoded to is the row of its class. -/
theorem wellFormed_decodeDecCode (k : Code) : WellFormed (decodeDecCode k) = true := by
  rcases Nat.lt_or_ge k.toNat 256 with hbase | hlow
  · simpa [decodeDecCode_base hbase, WellFormed] using hbase
  · rcases Nat.lt_or_ge k.toNat 65535 with hlt | hclear
    · have hhigh : k.toNat ≤ 65534 := Nat.le_of_lt_succ hlt
      simp [decodeDecCode_learned hlow hhigh, WellFormed, hlow, hhigh]
    · obtain rfl : k = 0xFFFF#16 := BitVec.eq_of_toNat_eq (by simp; omega)
      rfl

/-- Settles O6, by the format of the word. -/
theorem decodedOperationsAreWellFormed : Obligations.DecodedOperationsAreWellFormed := by
  intro p i h
  cases p with
  | mode1 w => cases h; exact wellFormed_decodeMode1 w
  | t10 m w => cases h; exact wellFormed_decodeT10 m w
  | code16 u w =>
    cases h
    cases u with
    | decCode => exact wellFormed_decodeDecCode w
    | rebuild | outCode => rfl
  | size16 m w =>
    simp only [decode, decodeSize16] at h
    split_ifs at h
    cases m <;> cases h <;> rfl

/-- Settles O4: each word is decoded by its own bits. -/
theorem sampleWordsDecode : Obligations.SampleWordsDecode := by
  unfold Obligations.SampleWordsDecode
  decide

/-- Settles O12: kind `0b11` is decoded to `T10.RESERVED` on either machine. -/
theorem reservedKindIsRefused : Obligations.ReservedKindIsRefused := fun s data rest =>
  ⟨rfl, fun hin => by
    rw [step_of_fetch_instr (fetch_transaction hin), decodeT10_reserved]
    rfl⟩

/-! ### `ENC.BYTE` and `DEC.IN` (R54, R83, R91) -/

/-- R81: below capacity, in `RUN`, `ENC.BYTE` is its lookup step. -/
theorem execEncByte_below {s : State} (c : Byte) (hm : s.mode = .compress) (hp : s.enc.phase = .run)
    (hsize : s.enc.size ≠ Config.capacity) : execEncByte c s = (encLookupStep c s).finish := by
  rw [execEncByte, whenRunning_eq _ (selectedAgent_encoder.mpr hm) hp, encCapacityCheck_below hsize]

/-- R83: a miss with no previous match emits nothing. -/
theorem encMiss_first {s : State} (c : Byte) (hi : s.enc.i = Config.clear) :
    encMiss c s = .go ((s.missInserted c).withEnc
      { (s.missInserted c).enc with i := baseCode c, inPos := s.enc.inPos + 1 }) := by
  rw [encMiss_eq, if_pos hi]
  rfl

/-- R83: a miss whose emission is accepted. -/
theorem encMiss_accept {s : State} (c : Byte) (hi : s.enc.i ≠ Config.clear) (ha : SinkAccepts 2 s) :
    encMiss c s =
      .go (((s.missInserted c).wrote [wireFirst s.byteOrder s.enc.i, wireSecond s.byteOrder s.enc.i]).withEnc
        { (s.missInserted c).enc with
          i := baseCode c, inPos := s.enc.inPos + 1, outCodes := s.enc.outCodes + 1 }) := by
  rw [encMiss_eq, if_neg hi, emitCode_accept (s := s.missInserted c) _ ha]
  rfl

/-- Settles O21: the step is `encMiss`, and with the base keys present a miss has a previous match. -/
theorem encByteMissInsertsAndEmits : Obligations.EncByteMissInsertsAndEmits := by
  intro c s hm hp hsize hl
  have hstep : exec (.encByte c) s = (encMiss c s).finish :=
    (execEncByte_below c hm hp hsize).trans (by rw [encLookupStep_miss hl])
  rw [hstep, ← zext16_eq]
  refine ⟨fun hi ha => ?_, fun hi => ?_, fun hinv => ?_⟩
  · rw [encMiss_accept c hi ha]
    rfl
  · rw [encMiss_first c hi]
    rfl
  · have hstore := (inv_iff.mp hinv).1.storeOk hp
    exact ⟨fun hi => by simp [hi, hstore.lookup_base] at hl,
      Nat.le_of_lt_succ (Nat.lt_of_le_of_ne hstore.bound hsize)⟩

/-- R92: in `RUN` the `DEC.CODE` row of a code, whichever it is, runs the step of the code. -/
theorem exec_decodeDecCode_running {s : State} (k : Code) (hm : s.mode = .decompress)
    (hp : s.dec.phase = .run) : exec (decodeDecCode k) s = decCodeStep k s := by
  rw [exec_decodeDecCode, whenRunning_eq _ (selectedAgent_decoder.mpr hm) hp]

/-- R91: the first byte of a code is held. -/
theorem execDecIn_first {s : State} (b : Byte) (hm : s.mode = .decompress) (hp : s.dec.phase = .run)
    (hv : s.dec.holdValid = false) : execDecIn b s =
      .next (s.withDec { s.dec with inPos := s.dec.inPos + 1, hold := b, holdValid := true }) := by
  rw [execDecIn, whenRunning_eq _ (selectedAgent_decoder.mpr hm) hp]
  exact if_neg (by simp [hv])

/-- R91: the second byte of a code runs `DEC.CODE` on the code the two bytes stand for. -/
theorem execDecIn_second {s : State} (b : Byte) (hm : s.mode = .decompress) (hp : s.dec.phase = .run)
    (hv : s.dec.holdValid = true) : execDecIn b s =
      decCodeStep (assembleCode s.byteOrder s.dec.hold b)
        (s.withDec { s.dec with inPos := s.dec.inPos + 1, holdValid := false }) := by
  rw [execDecIn, whenRunning_eq _ (selectedAgent_decoder.mpr hm) hp]
  exact if_pos hv

/-- R53: the code two bytes stand for is told by the sum of its byte order. -/
theorem assembleCode_eq {o : ByteOrder} {b0 b1 : Byte} {k : Code}
    (hle : o = .le → k.toNat = b0.toNat + 256 * b1.toNat)
    (hbe : o = .be → k.toNat = 256 * b0.toNat + b1.toNat) : assembleCode o b0 b1 = k := by
  apply BitVec.eq_of_toNat_eq
  cases o with
  | le => rw [toNat_assembleCode_le, hle rfl]
  | be => rw [toNat_assembleCode_be, hbe rfl]

/-- Settles O37: on the second byte both sides are the `DEC.CODE` step of the assembled code, which sets
`dec.k` itself. -/
theorem decInAssemblesCodes : Obligations.DecInAssemblesCodes := by
  refine fun b s => ⟨fun hm hp => ⟨fun hv => ?_, fun k i hv hle hbe hi => ?_⟩, fun hoff => ?_, ?_⟩
  · exact execDecIn_first b hm hp hv
  · obtain rfl : decodeDecCode k = i := Except.ok.inj hi
    have hcode := exec_decodeDecCode_running
      (s := s.withDec { s.dec with holdValid := false, inPos := s.dec.inPos + 1, k := k }) k hm hp
    have hin := execDecIn_second b hm hp hv
    rw [assembleCode_eq hle hbe] at hin
    exact hin.trans hcode.symm
  · change IsRefused (execDecIn b s)
    exact whenRunning_refused _ (by simpa using hoff)
  · simp [decode]

/-! ### A base code in a run (R56, R97, R104) -/

/-- R29 item 2: a base code spells its own byte in every started store. -/
theorem DecStoreOk.spells_base {d : List DecRecord} (h : DecStoreOk d) {k : Code} (hk : k.toNat < 256) :
    Spells d k [BitVec.ofNat 8 k.toNat] :=
  .record (t := []) (ne_clear_of_lt hk (by decide)) (h.base_get hk) .clear

/-- R92 step 3, R97: the store after a KNOWN step whose string begins with `b`. -/
def Dec.appended (d : Dec) (b : Byte) : List DecRecord :=
  d.dict ++ if d.i = Config.clear then [] else [{ pre := d.i, byte := b }]

/-- R97, R98: a KNOWN code whose string is accepted is decoded. -/
theorem decodeCode_known_accept {k : Code} {s : State} {b : Byte} {t : List Byte} (hl : k.toNat < s.dec.size)
    (hs : Spells s.dec.dict k (b :: t)) (ha : SinkAccepts (b :: t).length s) :
    decodeCode k s = .go (s.decoded k (b :: t) (s.dec.appended b)) := by
  have hr := rebuildString_of_spells hs
  by_cases hi : s.dec.i = Config.clear
  · rw [decodeCode_known_first hl hi hr, emitAndAdvance_accept ha, Dec.appended, if_pos hi, List.append_nil]
    rfl
  · rw [decodeCode_known_next hl hi hr, emitAndAdvance_accept ha, Dec.appended, if_neg hi]
    rfl

/-- R93: the store after the capacity check of a started decoder is started. -/
theorem DecStoreOk.afterCheck {s : State} (h : DecStoreOk s.dec.dict) :
    DecStoreOk (decCapacityCheck s).dec.dict := by
  rw [decCapacityCheck_eq]
  dsimp only [State.withDec_dec]
  split_ifs
  · exact .ofBase
  · exact h

/-- Settles O39: after the capacity check the store holds the base records, so the code is KNOWN. -/
theorem baseCodesAlwaysDecode : Obligations.BaseCodesAlwaysDecode := by
  intro k s hinv hm hp hk ha
  refine ⟨_, ?_, rfl⟩
  have hstore : DecStoreOk (s.withDec { s.dec with k := k }).dec.dict := (inv_iff.mp hinv).2.storeOk hp
  have hcheck := hstore.afterCheck
  have hdecoded := decodeCode_known_accept (hk.trans_le hcheck.size_ge) (hcheck.spells_base hk)
    (by rw [decCapacityCheck_eq]; exact ha)
  rw [← decodeDecCode_base hk, exec_decodeDecCode_running k hm hp, decCodeStep, hdecoded, decCapacityCheck_eq]
  rfl

end Sys2Proof.Machine

/-! ## The code space and its lifecycle (40_codespace_lifecycle.md): `RESEED`, the epochs of a run

Proofs of the statements on 40_codespace_lifecycle.md, with the lemmas they turn on. -/

namespace Sys2Proof.Machine

/-! ### `RESEED` (R72, R75, R76) -/

/-- Settles O28: `RESEED.ENC` is the shared operation, and its store is the base alphabet by number. -/
theorem reseedEncWritesTheStoreOnly : Obligations.ReseedEncWritesTheStoreOnly := by
  intro s
  change Host.Outcome.next (reseedEncoder s) = _
  rw [← encBase_eq]
  rfl

/-- Settles O29: `RESEED.DEC` is the shared operation, and its store is the base alphabet by number. -/
theorem reseedDecWritesTheStoreOnly : Obligations.ReseedDecWritesTheStoreOnly := by
  intro s
  change Host.Outcome.next (reseedDecoder s) = _
  rw [← decBase_eq]
  rfl

/-! ### Counting codes by epochs (R79, R89, R105)

A capacity check drops the `65535 - 256 = 65279` entries of an epoch, and every code after the first adds one
entry, so the entry count falls behind the codes by 65279 for each epoch that has ended. -/

/-- R79: `n` entries counted over all epochs leave `size` in the store, some whole epochs behind. -/
def EpochCount (n size : Nat) : Prop := ∃ j, n = 65279 * j + size

theorem EpochCount.succ {n size : Nat} (h : EpochCount n size) : EpochCount (n + 1) (size + 1) := by
  obtain ⟨j, hj⟩ := h
  exact ⟨j, by omega⟩

/-- R77, R79: a capacity check that resets the store ends an epoch. -/
theorem EpochCount.afterCheck {n size : Nat} (h : EpochCount n size) :
    EpochCount n (if size = Config.capacity then 256 else size) := by
  obtain ⟨j, hj⟩ := h
  split_ifs with hfull
  · have hsize : size = 65535 := hfull
    exact ⟨j + 1, by omega⟩
  · exact ⟨j, hj⟩

/-- R89: the encoder's entry count keeps step with the codes it emitted. -/
def Enc.Counted (e : Enc) : Prop := EpochCount (e.outCodes + 256) e.size

/-- R105: the decoder's entry count keeps step with the codes it consumed; the first adds no record. -/
def Dec.Counted (d : Dec) : Prop :=
  d.codeIdx = 0 ∧ d.size = 256 ∨ 1 ≤ d.codeIdx ∧ EpochCount (d.codeIdx + 255) d.size

theorem epochInv_iff {s : State} :
    EpochInv s ↔ (s.enc.phase = .run → s.enc.Counted) ∧ (s.dec.phase = .run → s.dec.Counted) :=
  ⟨fun h => ⟨h.enc, h.dec⟩, fun ⟨he, hd⟩ => ⟨he, hd⟩⟩

/-! ### The operations of the encoder keep its count (R89) -/

theorem encStart_counted {s t : State} (h : execEncStart s = .next t) : t.enc.Counted := by
  obtain ⟨-, -, hb⟩ := whenStartable_next h
  cases hb
  exact ⟨0, by simp [startEncoder, Enc.size]⟩

/-- R77, R82: the capacity check of the encoder touches the store alone. -/
theorem encCapacityCheck_eq (s : State) : encCapacityCheck s =
    s.withEnc { s.enc with dict := if s.enc.size = Config.capacity then encBase else s.enc.dict } := by
  by_cases h : s.enc.size = Config.capacity
  · rw [encCapacityCheck_full h, if_pos h]; rfl
  · rw [encCapacityCheck_below h, if_neg h]; rfl

/-- R82: the count after the capacity check. -/
theorem size_encCapacityCheck (s : State) :
    (encCapacityCheck s).enc.size = if s.enc.size = Config.capacity then 256 else s.enc.size := by
  rw [encCapacityCheck_eq]
  split_ifs <;> simp [Enc.size]

theorem Enc.Counted.afterCheck {s : State} (h : s.enc.Counted) : (encCapacityCheck s).enc.Counted := by
  have hcodes : (encCapacityCheck s).enc.outCodes = s.enc.outCodes := by rw [encCapacityCheck_eq]; rfl
  rw [Enc.Counted, size_encCapacityCheck, hcodes]
  exact EpochCount.afterCheck h

theorem State.size_missInserted (s : State) (c : Byte) : (s.missInserted c).enc.size = s.enc.size + 1 :=
  List.length_append

/-- R83, R87 item 1: `CLEAR` never misses, so a miss has a match to emit. -/
theorem ByteReady.ne_clear_of_miss {e : Enc} (h : ByteReady e) {c : Byte}
    (hl : encLookup e.i c e.dict = none) : e.i ≠ Config.clear := by
  intro hi
  rw [hi, h.store.lookup_base c] at hl
  cases hl

/-- R83, R84: a hit adds no entry and emits no code; a miss that completes adds one entry and emits one code. -/
theorem encLookupStep_counted {s t : State} {c : Byte} (h : (encLookupStep c s).finish = .next t)
    (hready : ByteReady s.enc) (hc : s.enc.Counted) (hrun : t.enc.phase = .run) : t.enc.Counted := by
  cases hl : encLookup s.enc.i c s.enc.dict with
  | some r =>
    rw [encLookupStep_hit hl] at h
    cases h
    exact hc
  | none =>
    have hi := hready.ne_clear_of_miss hl
    rw [encLookupStep_miss hl] at h
    rcases encMiss_cases c s with ⟨hclear, -⟩ | ⟨-, he⟩ | ⟨-, e, -, he⟩ | ⟨-, e, -, he⟩
    · exact absurd hclear hi
    · rw [he] at h
      cases h
      have hcount := EpochCount.succ hc
      rwa [Nat.add_right_comm, ← State.size_missInserted s c] at hcount
    all_goals
      rw [he] at h
      cases h
      cases hrun

theorem encByte_counted {s t : State} {c : Byte} (h : execEncByte c s = .next t)
    (hinv : EncInv s.mode s.enc) (hc : s.enc.phase = .run → s.enc.Counted) (hrun : t.enc.phase = .run) :
    t.enc.Counted := by
  obtain ⟨-, hp, hb⟩ := whenRunning_next h
  exact encLookupStep_counted hb (hinv.byteReady hp) (hc hp).afterCheck hrun

/-- R85, R111: `ENC.END` ends the run, in `DONE` or in `FAULT`. -/
theorem encEnd_leaves_run {s t : State} (h : execEncEnd s = .next t) : t.enc.phase ≠ .run := by
  obtain ⟨hm, hp, -⟩ := whenRunning_next h
  rcases encEnd_cases s hm hp with ⟨-, he⟩ | ⟨-, he⟩ | ⟨-, e, -, he⟩ | ⟨-, e, -, he⟩ <;>
    (rw [he] at h; cases h; nofun)

/-! ### The operations of the decoder keep its count (R105) -/

theorem decStart_counted {s t : State} (h : execDecStart s = .next t) : t.dec.Counted := by
  obtain ⟨-, -, hb⟩ := whenStartable_next h
  cases hb
  exact .inl ⟨rfl, length_decBase⟩

/-- R93: the capacity check writes the store alone, and none is due before the first code. -/
theorem Dec.Counted.afterCheck {s : State} (h : s.dec.Counted) : (decCapacityCheck s).dec.Counted := by
  have hidx : (decCapacityCheck s).dec.codeIdx = s.dec.codeIdx := by rw [decCapacityCheck_eq]; rfl
  rw [Dec.Counted, size_decCapacityCheck, hidx]
  obtain ⟨hfirst, hsize⟩ | ⟨hlater, hcount⟩ := h
  · exact .inl ⟨hfirst, by simp [hsize]⟩
  · exact .inr ⟨hlater, hcount.afterCheck⟩

/-- R92, R97, R99: a step that completes consumes one code and appends one record, except that the first code
appends none. -/
theorem CodeEnds.counted {k : Code} {s t : State} (h : CodeEnds k s t)
    (hstart : s.dec.i = Config.clear ↔ s.dec.codeIdx = 0) (hc : s.dec.Counted) (hrun : t.dec.phase = .run) :
    t.dec.Counted := by
  cases h with
  | faulted hphase => simp [hphase] at hrun
  | completed str dict hafter _ _ ht =>
    have hsize : t.dec.size = s.dec.size + (if s.dec.i = Config.clear then 0 else 1) := by
      rw [ht]; exact hafter.length
    have hidx : t.dec.codeIdx = s.dec.codeIdx + 1 := by rw [ht]; rfl
    refine .inr ⟨by omega, ?_⟩
    rw [hidx, hsize]
    obtain ⟨hfirst, hbase⟩ | ⟨hlater, hcount⟩ := hc
    · exact ⟨0, by simp [hstart.mpr hfirst, hfirst, hbase]⟩
    · have hi : s.dec.i ≠ Config.clear := fun hclear => by simp [hstart.mp hclear] at hlater
      rw [if_neg hi, Nat.add_right_comm]
      exact hcount.succ

theorem decCodeStep_counted {k : Code} {s t : State} (h : decCodeStep k s = .next t)
    (hstart : s.dec.i = Config.clear ↔ s.dec.codeIdx = 0) (hc : s.dec.Counted) (hrun : t.dec.phase = .run) :
    t.dec.Counted := by
  have hchecked := Dec.Counted.afterCheck (s := s.withDec { s.dec with k := k }) hc
  refine (codeEnds_of_decodeCode h).counted ?_ hchecked hrun
  rw [decCapacityCheck_eq]
  exact hstart

theorem decIn_counted {s t : State} {b : Byte} (h : execDecIn b s = .next t) (hinv : DecInv s.mode s.dec)
    (hc : s.dec.phase = .run → s.dec.Counted) (hrun : t.dec.phase = .run) : t.dec.Counted := by
  obtain ⟨hp, ⟨-, rfl⟩ | ⟨-, hb⟩⟩ := execDecIn_next h
  · exact hc hp
  · exact decCodeStep_counted hb (hinv.prevOk (.inl hp)).start (hc hp) hrun

/-- R102, R111: `DEC.END` ends the run, in `DONE` or in `FAULT`. -/
theorem decEnd_leaves_run {s t : State} (h : execDecEnd s = .next t) : t.dec.phase ≠ .run := by
  obtain ⟨-, -, hb⟩ := whenRunning_next h
  split at hb <;> (cases hb; nofun)

/-! ### Every step keeps the counts of both machines -/

theorem epochInv_of_encoderOp {i : Instr} {s t : State} (hi : isEncoderOp i = true) (h : exec i s = .next t)
    (hd : s.dec.phase = .run → s.dec.Counted) (he : t.enc.phase = .run → t.enc.Counted) : EpochInv t :=
  epochInv_iff.mpr ⟨he, by rwa [(exec_encoder_frame hi h).1]⟩

theorem epochInv_of_decoderOp {i : Instr} {s t : State} (hi : isDecoderOp i = true) (h : exec i s = .next t)
    (he : s.enc.phase = .run → s.enc.Counted) (hd : t.dec.phase = .run → t.dec.Counted) : EpochInv t :=
  epochInv_iff.mpr ⟨by rwa [(exec_decoder_frame hi h).1], hd⟩

/-- Settles O52: each operation keeps its own machine's count and leaves the other machine; an operation that
ends the run has nothing to keep. -/
theorem everyStepKeepsTheEpochAccounting : Obligations.EveryStepKeepsTheEpochAccounting := by
  intro s t hinv hepoch hstep
  obtain ⟨heinv, hdinv⟩ := inv_iff.mp hinv
  obtain ⟨he, hd⟩ := epochInv_iff.mp hepoch
  cases stepRuns_of_step hstep with
  | select m rest h =>
    obtain ⟨-, -, rfl⟩ := execSysSelect_next h
    exact epochInv_iff.mpr ⟨he, hd⟩
  | encStart rest h => exact epochInv_of_encoderOp (i := .encStart) rfl h hd fun _ => encStart_counted h
  | encByte c rest h => exact epochInv_of_encoderOp (i := .encByte c) rfl h hd (encByte_counted h heinv he)
  | encEnd rest h => exact epochInv_of_encoderOp (i := .encEnd) rfl h hd (absurd · (encEnd_leaves_run h))
  | decStart rest h => exact epochInv_of_decoderOp (i := .decStart) rfl h he fun _ => decStart_counted h
  | decIn b rest h => exact epochInv_of_decoderOp (i := .decIn b) rfl h he (decIn_counted h hdinv hd)
  | decEnd rest h => exact epochInv_of_decoderOp (i := .decEnd) rfl h he (absurd · (decEnd_leaves_run h))
  | decCode k rest hv h =>
    obtain ⟨-, hp, hb⟩ := whenRunning_next h
    have hstart : s.dec.i = Config.clear ↔ s.dec.codeIdx = 0 := (hdinv.prevOk (.inl hp)).start
    exact epochInv_of_decoderOp (i := .decCodeLearned k) rfl h he (decCodeStep_counted hb hstart (hd hp))
  | readFailure e rest h =>
    rcases readFailed_next h with ⟨-, rfl⟩ | ⟨-, rfl⟩
    · exact epochInv_iff.mpr ⟨nofun, hd⟩
    · exact epochInv_iff.mpr ⟨he, nofun⟩

end Sys2Proof.Machine

/-! ## The encoder (41_encoder.md): `ENC.START`, `ENC.BYTE`, `ENC.END`, `OUT.CODE`

Proofs of the statements on 41_encoder.md, with the lemmas they turn on. -/

namespace Sys2Proof.Machine

/-! ### `ENC.START` (R80) -/

/-- Settles O19: outside `RUN` the step is `startEncoder`, and its store is the base alphabet by number. -/
theorem encStartOpensAFreshRun : Obligations.EncStartOpensAFreshRun := by
  refine fun s data => ⟨fun hm hp => ?_, fun hoff => ?_, ?_⟩
  · change execEncStart s = _
    rw [execEncStart, whenStartable_eq _ (selectedAgent_encoder.mpr hm) hp, ← encBase_eq]
    rfl
  · change IsRefused (execEncStart s)
    exact whenStartable_refused _ (by simpa using hoff)
  · simp [decode]

/-! ### A refused byte of a code (R88, R123, R129) -/

/-- R129: a first byte refused leaves nothing on the wire. -/
theorem State.wroteUntilRefused_nil (s : State) : s.wroteUntilRefused [] = s.withSink (s.sink.drop 1) := by
  rw [State.wroteUntilRefused, State.wrote_nil]
  rfl

/-- R81, R85, R129: a code whose first byte is refused is not counted. -/
theorem emitCode_fail_first (v : Code) {s : State} {e : HostError} (h : SinkFailsAfter 0 e s) :
    emitCode v s = .raised (raise .encoder (.transport e .output) (s.withSink (s.sink.drop 1))) := by
  rw [emitCode, outCode_fail_first v h, State.wroteUntilRefused_nil, Flow.andThen_raised]

/-- R81, R85, R129: a code whose second byte is refused is not counted. -/
theorem emitCode_fail_second (v : Code) {s : State} {e : HostError} (h : SinkFailsAfter 1 e s) :
    emitCode v s =
      .raised (raise .encoder (.transport e .output) (s.wroteUntilRefused [wireFirst s.byteOrder v])) := by
  rw [emitCode, outCode_fail_second v h, Flow.andThen_raised]

/-! ### `OUT.CODE` (R88) -/

/-- R53: a byte with the value of `v mod 256` is the low byte of `v`. -/
theorem codeLow_eq {v : Code} {low : Byte} (h : low.toNat = v.toNat % 256) : codeLow v = low :=
  BitVec.eq_of_toNat_eq ((toNat_codeLow v).trans h.symm)

/-- R53: a byte with the value of `v / 256` is the high byte of `v`. -/
theorem codeHigh_eq {v : Code} {high : Byte} (h : high.toNat = v.toNat / 256) : codeHigh v = high :=
  BitVec.eq_of_toNat_eq ((toNat_codeHigh v).trans h.symm)

theorem wireFirst_eq_ite (o : ByteOrder) (v : Code) :
    wireFirst o v = if o = .le then codeLow v else codeHigh v := by
  cases o <;> rfl

/-- Settles O27: by what `outCode` answers to each sink, with the wire bytes of `v` as its low and high byte. -/
theorem outCodeWritesTwoWireBytes : Obligations.OutCodeWritesTwoWireBytes := by
  intro v s e low high hlow hhigh
  obtain rfl := codeLow_eq hlow
  obtain rfl := codeHigh_eq hhigh
  have hexec : exec (.outCode v) s = (outCode v s).finish := rfl
  rw [hexec, ← wireFirst_eq_ite]
  refine ⟨fun ho ha => ?_, fun ho ha => ?_, fun hf => ?_, fun hf => ?_⟩
  · have hwire : [wireFirst s.byteOrder v, wireSecond s.byteOrder v] = [codeLow v, codeHigh v] := by
      rw [ho]; rfl
    rw [outCode_accept v ha, hwire]
    rfl
  · have hwire : [wireFirst s.byteOrder v, wireSecond s.byteOrder v] = [codeHigh v, codeLow v] := by
      rw [ho]; rfl
    rw [outCode_accept v ha, hwire]
    rfl
  · rw [outCode_fail_first v hf, State.wroteUntilRefused_nil]
    rfl
  · rw [outCode_fail_second v hf]
    rfl

/-! ### `ENC.END` (R85) -/

/-- R85: with no match `ENC.END` only ends the run. -/
theorem execEncEnd_first {s : State} (hm : s.mode = .compress) (hp : s.enc.phase = .run)
    (hi : s.enc.i = Config.clear) : execEncEnd s = .next (s.withEnc { s.enc with phase := .done }) := by
  rw [execEncEnd, whenRunning_eq _ (selectedAgent_encoder.mpr hm) hp, if_pos hi]
  rfl

/-- R85: with a match `ENC.END` emits it and ends the run. -/
theorem execEncEnd_emits {s : State} (hm : s.mode = .compress) (hp : s.enc.phase = .run)
    (hi : s.enc.i ≠ Config.clear) : execEncEnd s =
      ((emitCode s.enc.i s).andThen fun u => .go (u.withEnc { u.enc with phase := .done })).finish := by
  rw [execEncEnd, whenRunning_eq _ (selectedAgent_encoder.mpr hm) hp, if_neg hi]

/-- Settles O26: by what the emission of the last match answers to each sink. -/
theorem encEndFlushesTheLastMatch : Obligations.EncEndFlushesTheLastMatch := by
  refine fun s e data => ⟨fun hm hp => ?_, fun hoff => ?_, ?_⟩
  · refine ⟨execEncEnd_first hm hp, fun hi ha => (execEncEnd_emits hm hp hi).trans ?_,
      fun hi hf => (execEncEnd_emits hm hp hi).trans ?_, fun hi hf => (execEncEnd_emits hm hp hi).trans ?_,
      fun hinv => (hinv.encMatch (.inl hp)).start⟩
    · rw [emitCode_accept _ ha]
      rfl
    · rw [emitCode_fail_first _ hf]
      rfl
    · rw [emitCode_fail_second _ hf]
      rfl
  · change IsRefused (execEncEnd s)
    exact whenRunning_refused _ (by simpa using hoff)
  · simp [decode]

/-! ### The hit case of `ENC.BYTE` (R84) -/

/-- R84: below capacity, in `RUN`, a key that is present extends the match. -/
theorem execEncByte_hit {s : State} {c : Byte} {r : Code} (hm : s.mode = .compress) (hp : s.enc.phase = .run)
    (hsize : s.enc.size ≠ Config.capacity) (hl : encLookup s.enc.i c s.enc.dict = some r) :
    execEncByte c s = .next (s.withEnc { s.enc with i := r, inPos := s.enc.inPos + 1 }) := by
  rw [execEncByte_below c hm hp hsize, encLookupStep_hit hl, Flow.finish_go]

/-- Settles O20: the first byte of a run is a hit, since its base key is present. -/
theorem encByteHitExtendsTheMatch : Obligations.EncByteHitExtendsTheMatch := by
  refine fun c s hm hp hsize => ⟨fun r hl => execEncByte_hit hm hp hsize hl, fun hinv hi => ?_⟩
  have hl : encLookup s.enc.i c s.enc.dict = some (BitVec.ofNat 16 c.toNat) := by
    rw [hi]
    exact (baseKeysAreAlwaysPresent c s hinv hp).1
  exact execEncByte_hit hm hp hsize hl

/-! ### A miss of `ENC.BYTE` whose emission is refused (R83, R129) -/

/-- R83: below capacity, in `RUN`, a key that is absent is the miss case. -/
theorem execEncByte_miss {s : State} {c : Byte} (hm : s.mode = .compress) (hp : s.enc.phase = .run)
    (hsize : s.enc.size ≠ Config.capacity) (hl : encLookup s.enc.i c s.enc.dict = none) :
    execEncByte c s = (encMiss c s).finish := by
  rw [execEncByte_below c hm hp hsize, encLookupStep_miss hl]

/-- R83, R129: the first byte of the code is refused: the insertion stands. -/
theorem encMiss_fail_first {s : State} {e : HostError} (c : Byte) (hi : s.enc.i ≠ Config.clear)
    (hf : SinkFailsAfter 0 e s) : encMiss c s =
      .raised (raise .encoder (.transport e .output) ((s.missInserted c).withSink (s.sink.drop 1))) := by
  rw [encMiss_eq, if_neg hi, emitCode_fail_first (s := s.missInserted c) _ hf]
  rfl

/-- R83, R129: the second byte of the code is refused: the insertion and the first byte stand. -/
theorem encMiss_fail_second {s : State} {e : HostError} (c : Byte) (hi : s.enc.i ≠ Config.clear)
    (hf : SinkFailsAfter 1 e s) : encMiss c s =
      .raised (raise .encoder (.transport e .output)
        ((s.missInserted c).wroteUntilRefused [wireFirst s.byteOrder s.enc.i])) := by
  rw [encMiss_eq, if_neg hi, emitCode_fail_second (s := s.missInserted c) _ hf]
  rfl

/-- Settles O23: the insertion comes before the emission, and what follows the emission does not run. -/
theorem encByteTransportKeepsTheInsertion : Obligations.EncByteTransportKeepsTheInsertion := by
  intro c s e hm hp hsize hl hi
  have hstep := execEncByte_miss hm hp hsize hl
  refine ⟨fun hf => hstep.trans ?_, fun hf => hstep.trans ?_⟩
  · rw [encMiss_fail_first c hi hf]
    rfl
  · rw [encMiss_fail_second c hi hf]
    rfl

/-! ### `ENC.BYTE` at capacity (R82, R87) -/

/-- R72: the base alphabet has no key under a match code. -/
theorem encLookup_encBase_none {p : Code} (hp : p ≠ Config.clear) (c : Byte) : encLookup p c encBase = none := by
  rw [encLookup_none]
  intro e he
  obtain ⟨b, -, rfl⟩ := List.mem_map.mp he
  exact fun hkey => hp hkey.1.symm

/-- R112: a guard looks at nothing but the selection and the phase of its machine. -/
theorem whenRunning_congr {a : Agent} {s t : State} {body : State → Result} (hm : s.mode = t.mode)
    (hp : s.phaseOf a = t.phaseOf a) (hb : body s = body t) : whenRunning a s body = whenRunning a t body := by
  rw [whenRunning, whenRunning, hm, hp, hb]

theorem size_reseedEncoder (s : State) : (reseedEncoder s).enc.size = 256 := length_encBase

/-- R77: no check is due on a store just reset. -/
theorem size_reseedEncoder_ne_capacity (s : State) : (reseedEncoder s).enc.size ≠ Config.capacity := by
  rw [size_reseedEncoder]
  decide

/-- R82: at capacity the check comes first, so the step is the step on the store reset. -/
theorem execEncByte_full {s : State} (c : Byte) (hsize : s.enc.size = Config.capacity) :
    execEncByte c s = execEncByte c (reseedEncoder s) := by
  refine whenRunning_congr rfl rfl ?_
  rw [encCapacityCheck_full hsize, encCapacityCheck_below (size_reseedEncoder_ne_capacity s)]

/-- Settles O22: at capacity the match is a base code, which misses in the base alphabet, so O21 speaks of the
state with its store reset. -/
theorem encByteReseedsAtCapacity : Obligations.EncByteReseedsAtCapacity := by
  refine fun c s hsize => ⟨execEncByte_full c hsize, fun hinv hm hp ha => ?_, fun t => execEncEnd_dict⟩
  have hbase : s.enc.i.toNat < 256 := (hinv.encMatch (.inl hp)).full hsize
  have hi : s.enc.i ≠ Config.clear := ne_clear_of_lt hbase (by decide)
  obtain ⟨hmiss, -⟩ := encByteMissInsertsAndEmits c (reseedEncoder s) hm hp
    (size_reseedEncoder_ne_capacity s) (encLookup_encBase_none hi c)
  rw [size_reseedEncoder] at hmiss
  exact ⟨hbase, (execEncByte_full c hsize).trans (hmiss hi ha)⟩

/-! ### Every byte is legal (R81, R86, R87) -/

/-- Settles O24: at capacity the step is O22's miss; below it is O20's hit or O21's miss. -/
theorem encByteAcceptsEveryByte : Obligations.EncByteAcceptsEveryByte := by
  intro c s hinv hm hp ha
  have hmatch := hinv.encMatch (.inl hp)
  by_cases hsize : s.enc.size = 65535
  · obtain ⟨-, hmiss, -⟩ := encByteReseedsAtCapacity c s hsize
    obtain ⟨hbase, hstep⟩ := hmiss hinv hm hp ha
    exact ⟨_, hstep, hp, rfl, .inr ⟨s.enc.i, by omega, by omega, rfl, rfl, .inr ⟨hsize, by simp [Enc.size]⟩⟩⟩
  · cases hl : encLookup s.enc.i c s.enc.dict with
    | some r =>
      exact ⟨_, (encByteHitExtendsTheMatch c s hm hp hsize).1 r hl, hp, rfl, .inl ⟨rfl, rfl, rfl⟩⟩
    | none =>
      obtain ⟨hmiss, -, hroom⟩ := encByteMissInsertsAndEmits c s hm hp hsize hl
      obtain ⟨hi, hbelow⟩ := hroom hinv
      have hknown := hmatch.known hi
      exact ⟨_, hmiss hi ha, hp, rfl,
        .inr ⟨s.enc.i, hknown, by omega, rfl, rfl, .inl List.length_append⟩⟩

end Sys2Proof.Machine

/-! ## The decoder (42_decoder.md): `REBUILD`, `DEC.START`, `DEC.CODE`, `DEC.END`

Proofs of the statements on 42_decoder.md, with the lemmas they turn on. -/

namespace Sys2Proof.Machine

/-! ### The walk of a chain that does not end (R101)

The codes from which a chain leaves the store after different numbers of records are different, and each is
an index into the store, so a chain leaves the store before the walk's bound is met. -/

/-- R101: from some present code a chain that reaches `x` has exactly `m` records left to read. -/
theorem ChainReaches.exists_suffix {d : List DecRecord} {n x : Code} {steps m : Nat}
    (h : ChainReaches d n steps x) (hpos : 0 < m) (hle : m ≤ steps) :
    ∃ y : Code, y.toNat < d.length ∧ ChainReaches d y m x := by
  induction h with
  | start => omega
  | @follow n x r steps hn hr h ih =>
    rcases Nat.lt_or_eq_of_le hle with hlt | rfl
    · exact ih (Nat.le_of_lt_succ hlt)
    · exact ⟨n, (List.getElem?_eq_some_iff.mp hr).1, .follow hn hr h⟩

/-- R101: a chain leaves the store in one place. -/
theorem ChainReaches.steps_unique {d : List DecRecord} {n x : Code} {steps steps' : Nat}
    (h : ChainReaches d n steps x) (h' : ChainReaches d n steps' x) (hx : d.length ≤ x.toNat) :
    steps = steps' := by
  have hout : d[x.toNat]? = none := List.getElem?_eq_none hx
  induction h generalizing steps' with
  | start => cases h' with
    | start => rfl
    | follow _ hr _ => simp [hout] at hr
  | follow _ hr _ ih => cases h' with
    | start => simp [hout] at hr
    | follow _ hr' h' =>
      obtain rfl := Option.some.inj (hr.symm.trans hr')
      rw [ih h' hx hout]

/-- R101: a chain that leaves the store reads each record at most once. -/
theorem ChainReaches.steps_le {d : List DecRecord} {n x : Code} {steps : Nat}
    (h : ChainReaches d n steps x) (hx : d.length ≤ x.toNat) : steps ≤ d.length := by
  choose code hlt hreach using fun m : Fin steps => h.exists_suffix m.val.succ_pos m.isLt
  have hinj : Function.Injective fun m => (⟨(code m).toNat, hlt m⟩ : Fin d.length) := by
    intro m n hmn
    have hcode : code m = code n := BitVec.eq_of_toNat_eq (Fin.mk.inj hmn)
    exact Fin.ext (Nat.succ.inj ((hreach m).steps_unique (hcode ▸ hreach n) hx))
  simpa using Fintype.card_le_of_injective _ hinj

/-- R100, R101: the walk breaks where its chain leaves the store, and where it has read as many records as the
store holds. -/
theorem rebuildString_of_reaches {d : List DecRecord} {n x : Code} {steps : Nat}
    (h : ChainReaches d n steps x) (hx : x ≠ Config.clear) (hd : d.length ≤ x.toNat ∨ steps = d.length) :
    rebuildString n d = .broken x :=
  walkChain_of_reaches h hx _ _ (hd.elim h.steps_le Nat.le_of_eq) hd

/-- R101: inside an operation, a walk that breaks raises `BadPrefix`. -/
theorem rebuildThen_of_broken {s : State} {n x : Code} (h : rebuildString n s.dec.dict = .broken x)
    (rest : List Byte → Flow) :
    rebuildThen n s rest = .raised (raise .decoder (.badPrefix s.dec.k x (codeOffset s.dec)) s) := by
  rw [rebuildThen, h]

/-! ### `REBUILD` (R100, R101) -/

/-- R101: `REBUILD` of a chain that breaks. -/
theorem execRebuild_of_broken {s : State} {n x : Code} (h : rebuildString n s.dec.dict = .broken x) :
    execRebuild n s = .next (raise .decoder (.badPrefix s.dec.k x (codeOffset s.dec)) s) := by
  rw [execRebuild, rebuildThen_of_broken h, Flow.finish_raised]

/-- Settles O33: a walk answers the string of its code or breaks, and it breaks where the chain says. -/
theorem rebuildRaisesBadPrefixOnBrokenChains : Obligations.RebuildRaisesBadPrefixOnBrokenChains := by
  refine fun s n => ⟨fun steps x h hx hd => execRebuild_of_broken (rebuildString_of_reaches h hx hd),
    fun hnone => ?_⟩
  cases hr : rebuildString n s.dec.dict with
  | string t => exact absurd (spells_of_rebuildString hr) (hnone t)
  | broken x =>
    obtain ⟨steps, h, hx, -, hd⟩ := walkChain_broken hr
    exact ⟨steps, x, h, hx, hd, execRebuild_of_broken hr⟩

/-! ### `DEC.START` (R90) -/

/-- Settles O35: outside `RUN` the step is `startDecoder`, and its store is the base records by number. -/
theorem decStartOpensAFreshRun : Obligations.DecStartOpensAFreshRun := by
  refine fun s data => ⟨fun hm hp => ⟨Config.freeCode s.freeIdx, Config.freeByte s.freeIdx,
    s.freeIdx + 1, ?_⟩, fun hoff => ?_, ?_⟩
  · change execDecStart s = _
    rw [execDecStart, whenStartable_eq _ (selectedAgent_decoder.mpr hm) hp, ← decBase_eq]
    rfl
  · change IsRefused (execDecStart s)
    exact whenStartable_refused _ (by simpa using hoff)
  · simp [decode]

/-! ### `DEC.END` (R102) -/

/-- R102: in `RUN`, `DEC.END` looks at the byte held alone. -/
theorem execDecEnd_running {s : State} (hm : s.mode = .decompress) (hp : s.dec.phase = .run) :
    execDecEnd s = if s.dec.holdValid then .next (raise .decoder (.corruptStream (s.dec.inPos - 1)) s)
      else .next (s.withDec { s.dec with phase := .done }) :=
  whenRunning_eq _ (selectedAgent_decoder.mpr hm) hp

/-- Settles O46, by whether a byte is held. -/
theorem decEndChecksForAPartialCode : Obligations.DecEndChecksForAPartialCode := by
  refine fun s data => ⟨fun hm hp => ⟨fun hv => ?_, fun hv => ?_⟩, fun hoff => ?_, ?_⟩
  · exact (execDecEnd_running hm hp).trans (if_neg (by simp [hv]))
  · exact (execDecEnd_running hm hp).trans (if_pos hv)
  · change IsRefused (execDecEnd s)
    exact whenRunning_refused _ (by simpa using hoff)
  · simp [decode]

/-! ### The three `DEC.CODE` rows (R92) -/

theorem exec_of_isDecCode {i : Instr} {k : Code} (hi : IsDecCode i k) (s : State) :
    exec i s = whenRunning .decoder s (decCodeStep k) := by
  rcases hi with rfl | rfl <;> rfl

/-- R92, R94: the row of `CLEAR` is the row of a learned code, on the code `CLEAR`. -/
theorem exec_decCodeClear (s : State) : exec .decCodeClear s = exec (.decCodeLearned Config.clear) s := rfl

/-- R92, R94: each row runs the step of one code, on every state. -/
theorem exists_decCodeStep {i : Instr} {k : Code} (hi : i = .decCodeClear ∨ IsDecCode i k) :
    ∃ c, ∀ s, exec i s = whenRunning .decoder s (decCodeStep c) := by
  rcases hi with rfl | hi
  · exact ⟨Config.clear, fun _ => rfl⟩
  · exact ⟨k, exec_of_isDecCode hi⟩

/-! ### `DEC.CODE` at capacity (R93) -/

theorem size_reseedDecoder (s : State) : (reseedDecoder s).dec.size = 256 := length_decBase

/-- R77: no check is due on a store just reset. -/
theorem size_reseedDecoder_ne_capacity (s : State) : (reseedDecoder s).dec.size ≠ Config.capacity := by
  rw [size_reseedDecoder]
  decide

/-- R93: at capacity the check comes first, so the step is the step on the store reset. -/
theorem decCodeStep_full {s : State} (k : Code) (hsize : s.dec.size = Config.capacity) :
    decCodeStep k s = decCodeStep k (reseedDecoder s) := by
  have hfull := decCapacityCheck_full (s := s.withDec { s.dec with k := k }) hsize
  have hfresh := decCapacityCheck_below (size_reseedDecoder_ne_capacity (s.withDec { s.dec with k := k }))
  exact congrArg (fun u => (decodeCode k u).finish) (hfull.trans hfresh.symm)

/-- Settles O44: the step at capacity is the step on the store reset, and the guard looks at neither store. -/
theorem decCodeReseedsAtCapacity : Obligations.DecCodeReseedsAtCapacity := by
  refine fun i k s hi => ⟨fun hsize => ?_, size_decCapacityCheck_le⟩
  obtain ⟨c, hexec⟩ := exists_decCodeStep hi
  rw [hexec, hexec]
  exact whenRunning_congr rfl rfl (decCodeStep_full c hsize)

/-! ### What a `DEC.CODE` below capacity does (R92 to R101) -/

/-- R92 steps 1 to 3: the state in which the string of the code is built. -/
def State.built (s : State) (k : Code) (str : List Byte) (dict : List DecRecord) : State :=
  s.withDec { s.dec with k := k, str := str, dict := dict }

/-- R98, R99: the string is accepted. -/
theorem emitAndAdvance_built_accept {k : Code} {s : State} {str : List Byte} {dict : List DecRecord}
    (ha : SinkAccepts str.length s) :
    (emitAndAdvance k (s.built k str dict)).finish = .next { s with
      dec := { s.dec with
        k := k, str := str, i := k, codeIdx := s.dec.codeIdx + 1, outPos := s.dec.outPos + str.length,
        dict := dict },
      output := s.output ++ str, sink := s.sink.drop str.length } := by
  rw [emitAndAdvance_accept (s := s.built k str dict) ha]
  rfl

/-- R98, R129: byte `n` of the string is refused, so neither `dec.i` nor the code count is written. -/
theorem emitAndAdvance_built_fail {k : Code} {s : State} {str : List Byte} {dict : List DecRecord}
    {e : HostError} {n : Nat} (hn : n < str.length) (hf : SinkFailsAfter n e s) :
    (emitAndAdvance k (s.built k str dict)).finish = .next { s with
      dec := { s.dec with
        k := k, str := str, outPos := s.dec.outPos + n, dict := dict,
        fault := .transport e .output, phase := .fault },
      output := s.output ++ str.take n, sink := s.sink.drop (n + 1) } := by
  have hlen : ((s.built k str dict).dec.str.take n).length = n := List.length_take_of_le hn.le
  rw [emitAndAdvance, emitBytes_fail (s := s.built k str dict) (bs := (s.built k str dict).dec.str) hn hf,
    State.wroteUntilRefused, hlen]
  rfl

section Below
variable {i : Instr} {k : Code} {s : State} (hi : IsDecCode i k) (hm : s.mode = .decompress)
  (hp : s.dec.phase = .run) (hsize : s.dec.size ≠ Config.capacity)
include hi hm hp hsize

theorem exec_decCode_below : exec i s = (decodeCode k (s.withDec { s.dec with k := k })).finish := by
  rw [exec_of_isDecCode hi, whenRunning_eq _ (selectedAgent_decoder.mpr hm) hp, decCodeStep,
    decCapacityCheck_below (s := s.withDec { s.dec with k := k }) hsize]

/-- R94. -/
theorem exec_decCode_invalid (hl : s.dec.size < k.toNat) :
    exec i s = .next { s with dec := { s.dec with
      k := k, fault := .invalidCode k s.dec.size (2 * s.dec.codeIdx), phase := .fault } } := by
  rw [exec_decCode_below hi hm hp hsize, decodeCode_invalid (s := s.withDec { s.dec with k := k }) hl]
  rfl

/-- R96. -/
theorem exec_decCode_self_none (hl : k.toNat = s.dec.size) (hc : s.dec.i = Config.clear) :
    exec i s = .next { s with dec := { s.dec with
      k := k, fault := .emptyPrefix k (2 * s.dec.codeIdx), phase := .fault } } := by
  rw [exec_decCode_below hi hm hp hsize, decodeCode_self_none (s := s.withDec { s.dec with k := k }) hl hc]
  rfl

/-- R97, R101: the walk of the code breaks. -/
theorem exec_decCode_known_broken {x : Code} (hl : k.toNat < s.dec.size)
    (hr : rebuildString k s.dec.dict = .broken x) :
    exec i s = .next { s with dec := { s.dec with
      k := k, fault := .badPrefix k x (2 * s.dec.codeIdx), phase := .fault } } := by
  rw [exec_decCode_below hi hm hp hsize, decodeCode_known_broken (s := s.withDec { s.dec with k := k }) hl hr]
  rfl

/-- R95, R101: the walk of the previous code breaks. -/
theorem exec_decCode_self_broken {x : Code} (hl : k.toNat = s.dec.size) (hc : s.dec.i ≠ Config.clear)
    (hr : rebuildString s.dec.i s.dec.dict = .broken x) :
    exec i s = .next { s with dec := { s.dec with
      k := k, fault := .badPrefix k x (2 * s.dec.codeIdx), phase := .fault } } := by
  rw [exec_decCode_below hi hm hp hsize,
    decodeCode_self_broken (s := s.withDec { s.dec with k := k }) hl hc hr]
  rfl

/-- R97: with no previous code a KNOWN code is emitted alone. -/
theorem exec_decCode_known_first {str : List Byte} (hl : k.toNat < s.dec.size) (hc : s.dec.i = Config.clear)
    (hs : Spells s.dec.dict k str) :
    exec i s = (emitAndAdvance k (s.built k str s.dec.dict)).finish := by
  rw [exec_decCode_below hi hm hp hsize,
    decodeCode_known_first (s := s.withDec { s.dec with k := k }) hl hc (rebuildString_of_spells hs)]
  rfl

/-- R97: with a previous code a KNOWN code is emitted after the append. -/
theorem exec_decCode_known_next {b : Byte} {t : List Byte} (hl : k.toNat < s.dec.size)
    (hc : s.dec.i ≠ Config.clear) (hs : Spells s.dec.dict k (b :: t)) :
    exec i s = (emitAndAdvance k (s.built k (b :: t) (decAppend s.dec.i b s.dec.dict))).finish := by
  rw [exec_decCode_below hi hm hp hsize,
    decodeCode_known_next (s := s.withDec { s.dec with k := k }) hl hc (rebuildString_of_spells hs)]
  rfl

/-- R95: a SELF code spells, after the append, the previous string and its first byte again. -/
theorem exec_decCode_self_next {b : Byte} {t : List Byte} (hl : k.toNat = s.dec.size)
    (hc : s.dec.i ≠ Config.clear) (hs : Spells s.dec.dict s.dec.i (b :: t)) :
    exec i s =
      (emitAndAdvance k (s.built k (b :: t ++ [b]) (decAppend s.dec.i b s.dec.dict))).finish := by
  have hk : k ≠ Config.clear := by
    rintro rfl
    exact hsize hl.symm
  rw [exec_decCode_below hi hm hp hsize,
    decodeCode_self_next (s := s.withDec { s.dec with k := k }) hl hc (rebuildString_of_spells hs)
      (rebuildString_of_spells (hs.appended hl hk))]
  rfl

end Below

/-! ### The previous code of a run (R96, R97) -/

/-- R25, R105: there is no previous code before the first code alone, when the store holds the base records. -/
theorem first_code_of_no_previous {s : State} (hinv : Inv s) (hepoch : EpochInv s) (hp : s.dec.phase = .run)
    (hc : s.dec.i = Config.clear) : s.dec.codeIdx = 0 ∧ s.dec.size = 256 := by
  have hfirst := (hinv.decPrev (.inl hp)).start.mp hc
  obtain h | ⟨hlater, -⟩ := hepoch.dec hp
  · exact h
  · omega

/-! ### The faults of `DEC.CODE` (R94, R96, R101) -/

/-- Settles O42: a code above the count is INVALID, and `CLEAR` is above every count the check leaves. -/
theorem decCodeAboveSizeRaisesInvalidCode : Obligations.DecCodeAboveSizeRaisesInvalidCode := by
  intro s hm hp
  have hclear : IsDecCode (.decCodeLearned Config.clear) Config.clear := .inr rfl
  refine ⟨fun i k hi hsize hl => exec_decCode_invalid hi hm hp hsize hl,
    fun hl => (exec_decCodeClear s).trans (exec_decCode_invalid hclear hm hp hl.ne hl), fun hfull => ?_⟩
  obtain ⟨hreseed, -⟩ := decCodeReseedsAtCapacity _ _ s (.inr hclear)
  have hinvalid := exec_decCode_invalid (s := reseedDecoder s) hclear hm hp
    (size_reseedDecoder_ne_capacity s) (by rw [size_reseedDecoder]; decide)
  rw [size_reseedDecoder] at hinvalid
  exact (hreseed hfull).trans hinvalid

/-- Settles O41: the SELF case with no previous code, which in a run is the first code. -/
theorem decCodeSelfWithoutPreviousRaises : Obligations.DecCodeSelfWithoutPreviousRaises := by
  refine fun i k s hi hm hp hsize hl hc => ⟨exec_decCode_self_none hi hm hp hsize hl hc,
    fun hinv hepoch => ?_⟩
  obtain ⟨hfirst, hbase⟩ := first_code_of_no_previous hinv hepoch hp hc
  exact ⟨hfirst, BitVec.eq_of_toNat_eq (hl.trans hbase)⟩

/-- Settles O43: the walk of the code, or of the previous code, breaks before anything is written. -/
theorem decCodeBrokenChainRaisesBadPrefix : Obligations.DecCodeBrokenChainRaisesBadPrefix := by
  intro i k s steps x hi hm hp hsize hx hd hchain
  rcases hchain with ⟨hl, h⟩ | ⟨hl, hc, h⟩
  · exact exec_decCode_known_broken hi hm hp hsize hl (rebuildString_of_reaches h hx hd)
  · exact exec_decCode_self_broken hi hm hp hsize hl hc (rebuildString_of_reaches h hx hd)

/-! ### The KNOWN and the SELF case (R95, R97, R98) -/

/-- Settles O38: the emission of the string of `k`, with the append before it when there is a previous code. -/
theorem decCodeKnownEmitsAndAppends : Obligations.DecCodeKnownEmitsAndAppends := by
  refine fun i k s hi hm hp hsize hl => ⟨fun str hs ha => ⟨fun hc => ?_, fun hc b rest hstr => ?_⟩,
    fun hinv hk => (hinv.decStore (by simp [hp])).spells_base hk, fun hinv hepoch hc => ?_⟩
  · exact (exec_decCode_known_first hi hm hp hsize hl hc hs).trans (emitAndAdvance_built_accept ha)
  · subst hstr
    exact (exec_decCode_known_next hi hm hp hsize hl hc hs).trans (emitAndAdvance_built_accept ha)
  · obtain ⟨hfirst, hbase⟩ := first_code_of_no_previous hinv hepoch hp hc
    exact ⟨hfirst, hbase ▸ hl⟩

/-- Settles O40: the emission of the string of the appended record; a previous code outside the store breaks
its own walk at once. -/
theorem decCodeSelfAppendsThenEmits : Obligations.DecCodeSelfAppendsThenEmits := by
  refine fun i k s hi hm hp hsize hl hc => ⟨fun b rest hs ha => ?_, fun hout => ?_⟩
  · have hlen : (b :: rest ++ [b]).length = rest.length + 2 := by simp
    rw [exec_decCode_self_next hi hm hp hsize hl hc hs, emitAndAdvance_built_accept (hlen ▸ ha), hlen]
    rfl
  · exact exec_decCode_self_broken hi hm hp hsize hl hc (rebuildString_of_reaches .start hc (.inl hout))

/-- Settles O45: the string is built and the record appended before the first byte is emitted. -/
theorem decEmissionTransportKeepsTheAppend : Obligations.DecEmissionTransportKeepsTheAppend := by
  refine fun i k s e n b rest hi hm hp hsize hf => ⟨fun hc hl hs hn => ?_, fun hc hl hs hn => ?_,
    fun hc hl hs hn => ?_⟩
  · exact (exec_decCode_known_first hi hm hp hsize hl hc hs).trans
      (emitAndAdvance_built_fail (Nat.lt_succ_of_le hn) hf)
  · exact (exec_decCode_known_next hi hm hp hsize hl hc hs).trans
      (emitAndAdvance_built_fail (Nat.lt_succ_of_le hn) hf)
  · exact (exec_decCode_self_next hi hm hp hsize hl hc hs).trans
      (emitAndAdvance_built_fail (by simp; omega) hf)

/-! ### What a `DEC.CODE` that raises leaves (R104, R129) -/

/-- R98, R129: an emission that faults raises `Transport` before `dec.i` and the code count are written. -/
theorem emitAndAdvance_faulted {k : Code} {s t : State} {str : List Byte} {dict : List DecRecord}
    (h : (emitAndAdvance k (s.withDec { s.dec with str := str, dict := dict })).finish = .next t)
    (hp : s.dec.phase = .run) (hfault : t.dec.phase = .fault) :
    t.dec.i = s.dec.i ∧ t.dec.codeIdx = s.dec.codeIdx ∧ ∃ e, t.dec.fault = .transport e .output := by
  rcases emitAndAdvance_cases k (s.withDec { s.dec with str := str, dict := dict }) with
    he | ⟨e, n, -, -, he⟩ <;> rw [he] at h <;> cases h
  · simp [hp] at hfault
  · exact ⟨rfl, rfl, e, rfl⟩

/-- R95: the walk of the record a SELF step appended never breaks, since the previous code has a string. -/
theorem rebuildString_appended {d : List DecRecord} {p k : Code} {b : Byte} {t : List Byte}
    (hk : k.toNat = d.length) (hsize : d.length ≠ Config.capacity) (h : rebuildString p d = .string t) :
    rebuildString k (decAppend p b d) = .string (t ++ [b]) := by
  refine rebuildString_of_spells ((spells_of_rebuildString h).appended hk ?_)
  rintro rfl
  exact hsize hk.symm

/-- R104, R129: a `DEC.CODE` past its capacity check that faults writes nothing but the fault, or raises
`Transport` in its emission. -/
theorem decodeCode_faulted {k : Code} {s t : State} (h : (decodeCode k s).finish = .next t)
    (hp : s.dec.phase = .run) (hsize : s.dec.size ≠ Config.capacity) (hfault : t.dec.phase = .fault) :
    (∃ f, t = raise .decoder f s) ∨
      t.dec.i = s.dec.i ∧ t.dec.codeIdx = s.dec.codeIdx ∧ ∃ e, t.dec.fault = .transport e .output := by
  rcases decodeCode_cases k s with ⟨f, -, he⟩ | ⟨-, -, str, -, he⟩ | ⟨-, -, b, str, -, he⟩ |
    ⟨hl, -, b, u, str, hr, ⟨-, he⟩ | ⟨x, hr', he⟩⟩ | he <;> rw [he] at h
  · cases h
    exact .inl ⟨f, rfl⟩
  · exact .inr (emitAndAdvance_faulted h hp hfault)
  · exact .inr (emitAndAdvance_faulted h hp hfault)
  · exact .inr (emitAndAdvance_faulted h hp hfault)
  · rw [rebuildString_appended hl hsize hr] at hr'
    cases hr'
  · cases h

theorem size_decCapacityCheck_ne (s : State) : (decCapacityCheck s).dec.size ≠ Config.capacity := by
  rw [size_decCapacityCheck]
  split_ifs with hsize
  · decide
  · exact hsize

/-- Settles O47: past the capacity check, a step that faults writes the fault alone or raises `Transport`. -/
theorem faultingDecCodeLeavesThePreviousCode : Obligations.FaultingDecCodeLeavesThePreviousCode := by
  intro i k s t hi h hfault
  obtain ⟨c, hexec⟩ := exists_decCodeStep hi
  rw [hexec] at h
  obtain ⟨-, hp, hstep⟩ := whenRunning_next h
  have hsize := size_decCapacityCheck_ne (s.withDec { s.dec with k := c })
  rw [decCodeStep] at hstep
  rw [decCapacityCheck_eq] at hstep hsize
  rcases decodeCode_faulted hstep hp hsize hfault with ⟨f, rfl⟩ | ⟨hprev, hidx, e, he⟩
  · exact ⟨rfl, rfl, fun _ => ⟨rfl, rfl, rfl, rfl⟩⟩
  · exact ⟨hprev, hidx, fun hne => absurd he (hne e)⟩

/-! ### Every `DEC.CODE` ends (R101, R114) -/

theorem emitAndAdvance_ends (k : Code) (s : State) : ∃ t, (emitAndAdvance k s).finish = .next t := by
  rcases emitAndAdvance_cases k s with he | ⟨e, n, -, -, he⟩ <;> (rw [he]; exact ⟨_, rfl⟩)

/-- R104 item 3: the walk of a code other than `CLEAR` breaks or answers at least one byte. -/
theorem rebuildString_of_ne_clear {n : Code} (d : List DecRecord) (hn : n ≠ Config.clear) :
    (∃ x, rebuildString n d = .broken x) ∨ ∃ b t, rebuildString n d = .string (b :: t) := by
  cases hr : rebuildString n d with
  | broken x => exact .inl ⟨x, rfl⟩
  | string t =>
    cases t with
    | nil => simpa using (spells_of_rebuildString hr).length_pos hn
    | cons b t => exact .inr ⟨b, t, rfl⟩

/-- R97, R101: with room for a record a KNOWN code and a previous code are not `CLEAR`, so no first byte is
missing. -/
theorem decodeCode_ends {s : State} (k : Code) (hroom : s.dec.size ≤ 65534) :
    ∃ t, (decodeCode k s).finish = .next t := by
  rcases Nat.lt_trichotomy k.toNat s.dec.size with hl | hl | hl
  · rcases rebuildString_of_ne_clear s.dec.dict (ne_clear_of_lt hl (by omega)) with ⟨x, hr⟩ | ⟨b, t, hr⟩
    · exact ⟨_, by rw [decodeCode_known_broken hl hr, Flow.finish_raised]⟩
    · by_cases hc : s.dec.i = Config.clear
      · rw [decodeCode_known_first hl hc hr]
        exact emitAndAdvance_ends k _
      · rw [decodeCode_known_next hl hc hr]
        exact emitAndAdvance_ends k _
  · by_cases hc : s.dec.i = Config.clear
    · exact ⟨_, by rw [decodeCode_self_none hl hc, Flow.finish_raised]⟩
    · rcases rebuildString_of_ne_clear s.dec.dict hc with ⟨x, hr⟩ | ⟨b, t, hr⟩
      · exact ⟨_, by rw [decodeCode_self_broken hl hc hr, Flow.finish_raised]⟩
      · have hsize : s.dec.size ≠ Config.capacity := (Nat.lt_succ_of_le hroom).ne
        rw [decodeCode_self_next hl hc hr (rebuildString_appended hl hsize hr)]
        exact emitAndAdvance_ends k _
  · exact ⟨_, by rw [decodeCode_invalid hl, Flow.finish_raised]⟩

/-- Settles O49: the capacity check leaves room for a record. -/
theorem everyDecCodeEnds : Obligations.EveryDecCodeEnds := by
  intro i k s hi hm hp hsize
  obtain ⟨c, hexec⟩ := exists_decCodeStep hi
  rw [hexec, whenRunning_eq _ (selectedAgent_decoder.mpr hm) hp]
  exact decodeCode_ends c (size_decCapacityCheck_le hsize)

end Sys2Proof.Machine

/-! ## The system (43_system.md): run control, the two contracts, the round trip

Proofs of the statements on 43_system.md, with the lemmas they turn on. -/

namespace Sys2Proof.Machine

/-! ### Operations one after another (R42, R63) -/

theorem execAll_cons {i : Instr} {is : List Instr} {s t : State} (h : exec i s = .next t) :
    execAll (i :: is) s = execAll is t := by
  rw [execAll, h]

theorem execUntilEnd_cons {a : Agent} {i : Instr} {is : List Instr} {s t : State} (h : exec i s = .next t)
    (hp : t.phaseOf a ≠ .fault) : execUntilEnd a (i :: is) s = execUntilEnd a is t := by
  simp only [execUntilEnd, h, if_neg hp]

/-- R118: a run that has faulted takes no more operations. -/
theorem execUntilEnd_faulted {a : Agent} {i : Instr} {is : List Instr} {s t : State} (h : exec i s = .next t)
    (hp : t.phaseOf a = .fault) : execUntilEnd a (i :: is) s = .next t := by
  simp only [execUntilEnd, h, if_pos hp]

theorem wireBytes_append (o : ByteOrder) (vs ws : List Code) :
    wireBytes o (vs ++ ws) = wireBytes o vs ++ wireBytes o ws := by
  induction vs with
  | nil => rfl
  | cons v vs ih => simp [wireBytes, ih]

/-- R39: a channel that never fails accepts any number of bytes. -/
theorem sinkAccepts_of_nil {s : State} (h : s.sink = []) (n : Nat) : SinkAccepts n s := by
  simp [SinkAccepts, h]

/-! ### The codes of a run of the encoder (R113)

On a channel that never fails the encoder set and the codes of a run are functions of the set the run begins
with and of the input bytes: `Enc.next` and `Enc.emits` for one byte, `Enc.codes` for the rest of a run. -/

/-- R82: the encoder set after the capacity check of `ENC.BYTE`. -/
def Enc.checked (e : Enc) : Enc :=
  { e with dict := if e.size = Config.capacity then encBase else e.dict }

/-- R83, R84: the encoder set after `ENC.BYTE c`. -/
def Enc.next (e : Enc) (c : Byte) : Enc :=
  match encLookup e.i c e.checked.dict with
  | none => { e.checked with
      dict := encInsert e.i c (nextCode e.checked.size) e.checked.dict, i := baseCode c,
      inPos := e.inPos + 1, outCodes := e.outCodes + 1 }
  | some r => { e.checked with i := r, inPos := e.inPos + 1 }

/-- R83, R84: the codes `ENC.BYTE c` emits: the previous match on a miss, none on a hit. -/
def Enc.emits (e : Enc) (c : Byte) : List Code :=
  match encLookup e.i c e.checked.dict with
  | none => [e.i]
  | some _ => []

/-- R85: the codes `ENC.END` emits. -/
def Enc.flush (e : Enc) : List Code := if e.i = Config.clear then [] else [e.i]

/-- R113: the codes of the rest of a run, from the input bytes that are left. -/
def Enc.codes (e : Enc) : List Byte → List Code
  | [] => e.flush
  | c :: x => e.emits c ++ (e.next c).codes x

theorem encCapacityCheck_eq_checked (s : State) : encCapacityCheck s = s.withEnc s.enc.checked :=
  encCapacityCheck_eq s

section Byte
variable {e : Enc} {c : Byte}

theorem Enc.next_hit {r : Code} (h : encLookup e.i c e.checked.dict = some r) :
    e.next c = { e.checked with i := r, inPos := e.inPos + 1 } := by
  rw [Enc.next, h]

theorem Enc.next_miss (h : encLookup e.i c e.checked.dict = none) :
    e.next c = { e.checked with
      dict := encInsert e.i c (nextCode e.checked.size) e.checked.dict, i := baseCode c,
      inPos := e.inPos + 1, outCodes := e.outCodes + 1 } := by
  rw [Enc.next, h]

theorem Enc.emits_hit {r : Code} (h : encLookup e.i c e.checked.dict = some r) : e.emits c = [] := by
  rw [Enc.emits, h]

theorem Enc.emits_miss (h : encLookup e.i c e.checked.dict = none) : e.emits c = [e.i] := by
  rw [Enc.emits, h]

/-- R25: `ENC.BYTE` counts its byte and the codes it emits. -/
theorem Enc.next_counts (e : Enc) (c : Byte) :
    (e.next c).inPos = e.inPos + 1 ∧ (e.next c).outCodes = e.outCodes + (e.emits c).length := by
  cases hl : encLookup e.i c e.checked.dict with
  | some r => rw [Enc.next_hit hl, Enc.emits_hit hl]; exact ⟨rfl, rfl⟩
  | none => rw [Enc.next_miss hl, Enc.emits_miss hl]; exact ⟨rfl, rfl⟩

end Byte

/-- R29, R110: an encoder set in `RUN` that meets the invariant. -/
structure Enc.Running (e : Enc) : Prop where
  inv : EncInv .compress e
  phase : e.phase = .run

/-- R39, R112, R134: a state in which the encoder is selected and in `RUN`, on a channel that never fails. -/
structure State.Encoding (s : State) : Prop where
  mode : s.mode = .compress
  sink : s.sink = []
  running : s.enc.Running

/-- R81, R85: `s` with the codes `vs` on the wire and the encoder set `e`. -/
def State.encoded (s : State) (vs : List Code) (e : Enc) : State :=
  (s.wrote (wireBytes s.byteOrder vs)).withEnc e

theorem State.encoded_encoded (s : State) (vs ws : List Code) (e e' : Enc) :
    (s.encoded vs e).encoded ws e' = s.encoded (vs ++ ws) e' := by
  simp [State.encoded, State.wrote, State.withEnc, wireBytes_append]

/-- R82: what the lookup of `ENC.BYTE` finds. -/
theorem Enc.Running.ready {e : Enc} (h : e.Running) : ByteReady e.checked := by
  have hready := EncInv.byteReady (s := (State.reset.withMode .compress).withEnc e) h.inv h.phase
  rwa [encCapacityCheck_eq_checked] at hready

/-- R81: `ENC.BYTE` on a channel that never fails. -/
theorem State.Encoding.execEncByte_eq {s : State} (h : s.Encoding) (c : Byte) :
    execEncByte c s = .next (s.encoded (s.enc.emits c) (s.enc.next c)) := by
  rw [execEncByte, whenRunning_eq _ (selectedAgent_encoder.mpr h.mode) h.running.phase,
    encCapacityCheck_eq_checked]
  cases hl : encLookup s.enc.i c s.enc.checked.dict with
  | some r =>
    rw [encLookupStep_hit (s := s.withEnc s.enc.checked) hl, Enc.emits_hit hl, Enc.next_hit hl]
    simp [State.encoded, wireBytes, State.wrote_nil]
    rfl
  | none =>
    have hi : s.enc.i ≠ Config.clear := h.running.ready.ne_clear_of_miss hl
    rw [encLookupStep_miss (s := s.withEnc s.enc.checked) hl,
      encMiss_accept (s := s.withEnc s.enc.checked) c hi (sinkAccepts_of_nil h.sink 2), Enc.emits_miss hl,
      Enc.next_miss hl]
    rfl

/-- R81, R86: every byte keeps the run going. -/
theorem Enc.Running.next {e : Enc} (h : e.Running) (c : Byte) : (e.next c).Running := by
  have hstep := State.Encoding.execEncByte_eq (s := State.reset.withEnc e) ⟨rfl, rfl, h⟩ c
  have hinv := encInv_of_execEncByte hstep h.inv
  refine ⟨hinv, ?_⟩
  cases hl : encLookup e.i c e.checked.dict with
  | some r => rw [Enc.next_hit hl]; exact h.phase
  | none => rw [Enc.next_miss hl]; exact h.phase

theorem State.Encoding.encoded_byte {s : State} (h : s.Encoding) (c : Byte) :
    (s.encoded (s.enc.emits c) (s.enc.next c)).Encoding :=
  ⟨h.mode, by simp [State.encoded, h.sink], h.running.next c⟩

/-- R87 item 5: after a byte there is a match. -/
theorem Enc.Running.next_ne_clear {e : Enc} (h : e.Running) (c : Byte) : (e.next c).i ≠ Config.clear := by
  have hnext := h.next c
  rw [Ne, (hnext.inv.matchOk (.inl hnext.phase)).start, (e.next_counts c).1]
  exact Nat.succ_ne_zero _

/-- R85: `ENC.END` on a channel that never fails. -/
theorem State.Encoding.execEncEnd_eq {s : State} (h : s.Encoding) :
    execEncEnd s = .next (s.encoded s.enc.flush
      { s.enc with phase := .done, outCodes := s.enc.outCodes + s.enc.flush.length }) := by
  by_cases hi : s.enc.i = Config.clear
  · rw [execEncEnd_first h.mode h.running.phase hi, Enc.flush, if_pos hi, State.encoded, wireBytes,
      State.wrote_nil]
    rfl
  · rw [execEncEnd_emits h.mode h.running.phase hi,
      emitCode_accept _ (sinkAccepts_of_nil h.sink 2), Enc.flush, if_neg hi]
    rfl

/-- R113: the rest of a run writes the codes of the bytes that are left. -/
theorem State.Encoding.execAll_rest {s : State} (h : s.Encoding) (x : List Byte) :
    ∃ e, execAll (x.map .encByte ++ [.encEnd]) s = .next (s.encoded (s.enc.codes x) e) ∧ e.phase = .done ∧
      e.outCodes = s.enc.outCodes + (s.enc.codes x).length ∧ e.inPos = s.enc.inPos + x.length := by
  induction x generalizing s with
  | nil => exact ⟨_, execAll_cons h.execEncEnd_eq, rfl, rfl, rfl⟩
  | cons c x ih =>
    obtain ⟨e, hrun, hp, hout, hin⟩ := ih (h.encoded_byte c)
    obtain ⟨hcin, hcout⟩ := s.enc.next_counts c
    refine ⟨e, ?_, hp, ?_, ?_⟩
    · rw [State.encoded_encoded] at hrun
      exact (execAll_cons (i := .encByte c) (h.execEncByte_eq c)).trans hrun
    · rw [Enc.codes, List.length_append, hout]
      change (s.enc.next c).outCodes + ((s.enc.next c).codes x).length = _
      omega
    · rw [List.length_cons, hin]
      change (s.enc.next c).inPos + x.length = _
      omega

/-- R80: the encoder set of a run that has just been started. -/
def Enc.fresh : Enc := (startEncoder State.reset).enc

theorem execEncStart_eq {s : State} (hm : s.mode = .compress) (hp : s.enc.phase ≠ .run) :
    execEncStart s = .next (s.withEnc .fresh) := by
  rw [execEncStart, whenStartable_eq _ (selectedAgent_encoder.mpr hm) hp]
  rfl

theorem Enc.Running.fresh : Enc.fresh.Running :=
  ⟨encInv_of_execEncStart (execEncStart_eq (s := State.reset) rfl (by decide)), rfl⟩

/-- R113: what `encode(x)` does from every startable state on a channel that never fails. -/
theorem execAll_encodeMacro {s : State} (hm : s.mode = .compress) (hp : s.enc.phase ≠ .run) (hs : s.sink = [])
    (x : List Byte) : ∃ e, execAll (encodeMacro x) s = .next (s.encoded (Enc.fresh.codes x) e) ∧
      e.phase = .done ∧ e.outCodes = (Enc.fresh.codes x).length ∧ e.inPos = x.length := by
  have hstart : (s.withEnc .fresh).Encoding := ⟨hm, hs, .fresh⟩
  obtain ⟨e, hrun, hdone, hout, hin⟩ := hstart.execAll_rest x
  exact ⟨e, (execAll_cons (i := .encStart) (execEncStart_eq hm hp)).trans hrun, hdone,
    hout.trans (Nat.zero_add _), hin.trans (Nat.zero_add _)⟩

/-! ### What the codes of an input are (R87, R113) -/

theorem Enc.mem_flush {e : Enc} {v : Code} : v ∈ e.flush ↔ e.i ≠ Config.clear ∧ v = e.i := by
  rw [Enc.flush]
  split_ifs with hi <;> simp [hi]

theorem Enc.length_flush_le (e : Enc) : e.flush.length ≤ 1 := by
  rw [Enc.flush]
  split_ifs <;> simp

theorem Enc.flush_eq_nil {e : Enc} : e.flush = [] ↔ e.i = Config.clear := by
  simp [Enc.flush]

/-- R83, R84: `ENC.BYTE` emits nothing, or the code `ENC.END` would emit. -/
theorem Enc.Running.emits_eq {e : Enc} (h : e.Running) (c : Byte) : e.emits c = [] ∨ e.emits c = e.flush := by
  cases hl : encLookup e.i c e.checked.dict with
  | some r => exact .inl (Enc.emits_hit hl)
  | none =>
    have hi : e.i ≠ Config.clear := h.ready.ne_clear_of_miss hl
    exact .inr ((Enc.emits_miss hl).trans (if_neg hi).symm)

/-- R9: the match of a run is assignable. -/
theorem Enc.Running.flush_le {e : Enc} (h : e.Running) : ∀ v ∈ e.flush, v.toNat ≤ 65534 := by
  intro v hv
  obtain ⟨hi, rfl⟩ := Enc.mem_flush.mp hv
  have hlt := (h.inv.matchOk (.inl h.phase)).known hi
  exact Nat.le_of_lt_succ (hlt.trans_le (h.inv.storeOk h.phase).bound)

/-- R9: every code of a run is assignable. -/
theorem Enc.Running.codes_le {e : Enc} (h : e.Running) (x : List Byte) : ∀ v ∈ e.codes x, v.toNat ≤ 65534 := by
  induction x generalizing e with
  | nil => exact h.flush_le
  | cons c x ih =>
    intro v hv
    rcases List.mem_append.mp hv with hv | hv
    · rcases h.emits_eq c with he | he <;> rw [he] at hv
      · cases hv
      · exact h.flush_le v hv
    · exact ih (h.next c) v hv

/-- R87, R113: at most one code for each byte left, and one for the match. -/
theorem Enc.Running.length_codes_le {e : Enc} (h : e.Running) (x : List Byte) :
    (e.codes x).length ≤ x.length + e.flush.length := by
  induction x generalizing e with
  | nil => exact (Nat.zero_add _).ge
  | cons c x ih =>
    have hrest := ih (h.next c)
    have hflush := (e.next c).length_flush_le
    have hemits : (e.emits c).length ≤ e.flush.length := by rcases h.emits_eq c with he | he <;> simp [he]
    simp only [Enc.codes, List.length_append, List.length_cons]
    omega

/-- R113: a run has no codes left only when it has neither a match nor bytes left. -/
theorem Enc.Running.codes_eq_nil {e : Enc} (h : e.Running) (x : List Byte) :
    e.codes x = [] ↔ e.i = Config.clear ∧ x = [] := by
  induction x generalizing e with
  | nil => simp [Enc.codes, Enc.flush_eq_nil]
  | cons c x ih => simp [Enc.codes, ih (h.next c), h.next_ne_clear c]

/-- R113: the codes emitted before `END` begin the codes of every longer input. -/
theorem Enc.dropLast_codes_prefix (e : Enc) (x y : List Byte) : (e.codes x).dropLast <+: e.codes (x ++ y) := by
  induction x generalizing e with
  | nil =>
    have hflush : e.flush.dropLast = [] := List.length_eq_zero_iff.mp (by simp [e.length_flush_le])
    rw [Enc.codes, hflush]
    exact List.nil_prefix
  | cons c x ih =>
    have hrest := (List.prefix_append_right_inj (e.emits c)).mpr (ih (e.next c))
    refine List.IsPrefix.trans ?_ hrest
    rw [Enc.codes, List.dropLast_append]
    split_ifs with hnil
    · exact (List.dropLast_prefix _).trans (List.prefix_append _ _)
    · exact List.prefix_refl _

/-- Settles O53: the codes of an input are those of a fresh run. -/
theorem encodeIsATotalStreamingFunction : Obligations.EncodeIsATotalStreamingFunction := by
  refine ⟨Enc.fresh.codes, fun x s hm hp hs => ?_, fun x => ⟨?_, ?_, ?_⟩, Enc.fresh.dropLast_codes_prefix⟩
  · obtain ⟨e, hrun, hdone, hout, hin⟩ := execAll_encodeMacro hm hp hs x
    exact ⟨_, hrun, hdone, rfl, hout, hin⟩
  · exact Enc.Running.fresh.codes_le x
  · exact Enc.Running.fresh.length_codes_le x
  · exact (Enc.Running.fresh.codes_eq_nil x).trans (and_iff_right rfl)

/-! ### The decoder on a channel that never fails (R114, R122) -/

/-- R39, R112, R134: a state in which the decoder is selected and in `RUN`, on a channel that never fails. -/
structure State.Decoding (s : State) : Prop where
  mode : s.mode = .decompress
  sink : s.sink = []
  phase : s.dec.phase = .run
  inv : DecInv .decompress s.dec

/-- R90: `DEC.START` from every startable state. -/
theorem execDecStart_eq {s : State} (hm : s.mode = .decompress) (hp : s.dec.phase ≠ .run) :
    execDecStart s = .next (startDecoder s) := by
  rw [execDecStart, whenStartable_eq _ (selectedAgent_decoder.mpr hm) hp]

theorem State.Decoding.start {s : State} (hm : s.mode = .decompress) (hp : s.dec.phase ≠ .run)
    (hs : s.sink = []) : (startDecoder s).Decoding where
  mode := hm
  sink := hs
  phase := rfl
  inv := hm ▸ decInv_of_execDecStart (execDecStart_eq hm hp)

/-- R118, R123: the decoder has faulted, and not in a channel. -/
structure Dec.Rejected (d : Dec) : Prop where
  phase : d.phase = .fault
  fault : d.fault ≠ .none
  noTransport : ∀ e c, d.fault ≠ .transport e c

/-- R98, R123: on a channel that never fails, the emission of a `DEC.CODE` completes. -/
theorem emitAndAdvance_runs {k : Code} {s t : State} (h : (emitAndAdvance k s).finish = .next t)
    (hs : s.sink = []) :
    t.sink = [] ∧ t.dec.phase = s.dec.phase ∧ t.dec.inPos = s.dec.inPos := by
  rw [emitAndAdvance_accept (sinkAccepts_of_nil hs _)] at h
  cases h
  exact ⟨by simp [hs], rfl, rfl⟩

/-- R114, R123: on a channel that never fails a `DEC.CODE` past its capacity check completes, or raises a fault
other than `Transport`. -/
theorem decodeCode_runs_or_rejects {k : Code} {s t : State} (h : (decodeCode k s).finish = .next t)
    (hs : s.sink = []) :
    (t.sink = [] ∧ t.dec.phase = s.dec.phase ∧ t.dec.inPos = s.dec.inPos) ∨ t.dec.Rejected := by
  rcases decodeCode_cases k s with ⟨f, hf, he⟩ | ⟨-, -, str, -, he⟩ | ⟨-, -, b, str, -, he⟩ |
    ⟨-, -, b, _, str, -, ⟨-, he⟩ | ⟨x, -, he⟩⟩ | he <;> rw [he] at h
  · cases h
    rcases hf with rfl | rfl | ⟨x, rfl⟩ <;> exact .inr ⟨rfl, nofun, nofun⟩
  · exact .inl (emitAndAdvance_runs h hs :)
  · exact .inl (emitAndAdvance_runs h hs :)
  · exact .inl (emitAndAdvance_runs h hs :)
  · cases h
    exact .inr ⟨rfl, nofun, nofun⟩
  · cases h

/-- R91, R114: every byte is taken; the run goes on with the byte counted, or it is rejected. -/
theorem State.Decoding.execDecIn_cases {s : State} (h : s.Decoding) (b : Byte) :
    ∃ t, execDecIn b s = .next t ∧
      (t.Decoding ∧ t.dec.inPos = s.dec.inPos + 1 ∨ t.dec.Rejected) := by
  obtain ⟨t, ht⟩ : ∃ t, execDecIn b s = .next t := by
    cases hv : s.dec.holdValid with
    | false => exact ⟨_, execDecIn_first b h.mode h.phase hv⟩
    | true =>
      rw [execDecIn_second b h.mode h.phase hv]
      exact decodeCode_ends _ (size_decCapacityCheck_le (h.inv.storeOk h.phase).bound)
  refine ⟨t, ht, ?_⟩
  have hmode : t.mode = .decompress := (exec_decoder_frame (i := .decIn b) rfl ht).2.trans h.mode
  have hinv : DecInv .decompress t.dec := hmode ▸ decInv_of_execDecIn ht (h.mode ▸ h.inv)
  rcases (execDecIn_next ht).2 with ⟨-, rfl⟩ | ⟨-, hcode⟩
  · exact .inl ⟨⟨hmode, h.sink, h.phase, hinv⟩, rfl⟩
  · rw [decCodeStep, decCapacityCheck_eq] at hcode
    refine (decodeCode_runs_or_rejects hcode h.sink).imp_left ?_
    rintro ⟨hsink, hphase, hcount⟩
    exact ⟨⟨hmode, hsink, hphase.trans h.phase, hinv⟩, hcount⟩

/-- R114, R122: the rest of a run takes all the bytes that are left and ends between codes, or is rejected. -/
theorem State.Decoding.execUntilEnd_rest {s : State} (h : s.Decoding) (y : List Byte) :
    ∃ t, execUntilEnd .decoder (y.map .decIn ++ [.decEnd]) s = .next t ∧
      (t.dec.phase = .done ∧ t.dec.fault = .none ∧ t.dec.inPos = s.dec.inPos + y.length ∧ t.dec.inPos % 2 = 0 ∨
        t.dec.Rejected) := by
  induction y generalizing s with
  | nil =>
    have hend := execDecEnd_running h.mode h.phase
    cases hv : s.dec.holdValid with
    | false =>
      rw [if_neg (by simp [hv])] at hend
      have hcount := (h.inv.prevOk (.inl h.phase)).count
      have heven : s.dec.inPos % 2 = 0 := by simp [hcount, hv]
      exact ⟨_, execUntilEnd_cons (i := .decEnd) hend (by simp),
        .inl ⟨rfl, h.inv.noFault h.phase, rfl, heven⟩⟩
    | true =>
      rw [if_pos hv] at hend
      exact ⟨_, execUntilEnd_faulted (i := .decEnd) hend rfl, .inr ⟨rfl, nofun, nofun⟩⟩
  | cons b y ih =>
    obtain ⟨t, ht, ⟨hrun, hcount⟩ | hrej⟩ := h.execDecIn_cases b
    · obtain ⟨u, hu, hends⟩ := ih hrun
      refine ⟨u, (execUntilEnd_cons (i := .decIn b) ht (by simp [hrun.phase])).trans hu, ?_⟩
      rwa [hcount, Nat.add_right_comm] at hends
    · exact ⟨t, execUntilEnd_faulted (i := .decIn b) ht hrej.phase, .inr hrej⟩

/-- Settles O54, by what each byte can do to a run. -/
theorem decodeAlwaysEnds : Obligations.DecodeAlwaysEnds := by
  intro y s hm hp hs
  have hstart := State.Decoding.start hm hp hs
  obtain ⟨t, ht, hends⟩ := hstart.execUntilEnd_rest y
  refine ⟨t, (execUntilEnd_cons (i := .decStart) (execDecStart_eq hm hp) (by simp [hstart.phase])).trans ht, ?_⟩
  rcases hends with ⟨hdone, hfault, hcount, heven⟩ | ⟨hphase, hfault, hno⟩
  · have hall : t.dec.inPos = y.length := hcount.trans (Nat.zero_add _)
    exact .inl ⟨hdone, hfault, hall ▸ heven, hall⟩
  · exact .inr ⟨hphase, hfault, hno⟩

/-! ### The two stores side by side (R48, R89, R105, R116)

The code of an encoder pair is its position, so without its codes the encoder store is a decoder store in which
the encoder's match spells a string. Between two codes the encoder is one pair ahead: of that pair the decoder
knows the prefix code, and it learns the byte as the first of the next code's string. -/

/-- R15, R19: the pairs of an encoder store as records at the index of their code. -/
def encRecords (dict : List EncEntry) : List DecRecord :=
  dict.map fun a => { pre := a.pre, byte := a.byte }

@[simp] theorem length_encRecords (dict : List EncEntry) : (encRecords dict).length = dict.length := by
  simp [encRecords]

theorem encRecords_encBase : encRecords encBase = decBase := by
  simp [encRecords, encBase, decBase]

theorem encRecords_encInsert (p : Code) (c : Byte) (n : Code) (dict : List EncEntry) :
    encRecords (encInsert p c n dict) = decAppend p c (encRecords dict) := by
  simp [encRecords, encInsert, decAppend]

theorem encRecords_get {dict : List EncEntry} {n : Nat} {r : DecRecord} (h : (encRecords dict)[n]? = some r) :
    ∃ a, dict[n]? = some a ∧ a.pre = r.pre ∧ a.byte = r.byte := by
  rw [encRecords, List.getElem?_map] at h
  obtain ⟨a, ha, rfl⟩ := Option.map_eq_some_iff.mp h
  exact ⟨a, ha, rfl, rfl⟩

/-- R84: the code a lookup finds spells the string of the prefix and then the byte. -/
theorem EncStoreOk.spells_of_lookup {dict : List EncEntry} (h : EncStoreOk dict) {p v : Code} {c : Byte}
    {t : List Byte} (hl : encLookup p c dict = some v) (hp : Spells (encRecords dict) p t) :
    Spells (encRecords dict) v (t ++ [c]) := by
  obtain ⟨a, ha, rfl, rfl, rfl⟩ := encLookup_some hl
  have hclear : a.code ≠ Config.clear := ne_clear_of_lt (h.code_lt ha) h.bound
  obtain ⟨n, hn⟩ := List.getElem?_of_mem ha
  refine .record (r := { pre := a.pre, byte := a.byte }) hclear ?_ hp
  rw [h.codes n a hn, encRecords, List.getElem?_map, hn]
  rfl

/-- R29 items 4 and 7: the prefix of a record is `CLEAR` or an index before the record's own. -/
def PrefixesDown (d : List DecRecord) : Prop :=
  ∀ (n : Nat) (r : DecRecord), d[n]? = some r → r.pre = Config.clear ∨ r.pre.toNat < n

theorem EncStoreOk.prefixesDown {dict : List EncEntry} (h : EncStoreOk dict) :
    PrefixesDown (encRecords dict) := by
  intro n r hr
  obtain ⟨a, ha, hpre, -⟩ := encRecords_get hr
  rw [← hpre]
  rcases Nat.lt_or_ge n 256 with hn | hn
  · rw [h.base_get hn] at ha
    cases ha
    exact .inl rfl
  · exact .inr (h.learned n a hn ha).1

/-- R48: where prefixes go down, the string of a code is told by the records up to the code. -/
theorem Spells.of_append {d e : List DecRecord} {x : Code} {t : List Byte} (h : Spells (d ++ e) x t)
    (hdown : PrefixesDown (d ++ e)) (hx : x = Config.clear ∨ x.toNat < d.length) : Spells d x t := by
  induction h with
  | clear => exact .clear
  | @record x r t hclear hr ht ih =>
    have hlt := hx.resolve_left hclear
    have hpre := (hdown _ r hr).imp_right fun hr => hr.trans hlt
    rw [List.getElem?_append_left hlt] at hr
    exact .record hclear hr (ih hpre)

/-- R68: the string of a code is the string of its prefix and then its byte. -/
theorem Spells.exists_record {d : List DecRecord} {x : Code} {t : List Byte} (h : Spells d x t)
    (hx : x ≠ Config.clear) :
    ∃ r u, d[x.toNat]? = some r ∧ Spells d r.pre u ∧ t = u ++ [r.byte] := by
  cases h with
  | clear => exact absurd rfl hx
  | record _ hr ht => exact ⟨_, _, hr, ht, rfl⟩

theorem Spells.ne_clear {d : List DecRecord} {x : Code} {b : Byte} {t : List Byte} (h : Spells d x (b :: t)) :
    x ≠ Config.clear := by
  rintro rfl
  cases h.unique .clear

/-! ### A code of the encoder at the decoder (R95, R97, R116) -/

/-- R97: with no previous code a step appends nothing. -/
theorem Dec.appended_of_first {d : Dec} (hi : d.i = Config.clear) (b : Byte) : d.appended b = d.dict := by
  rw [Dec.appended, if_pos hi, List.append_nil]

/-- R95, R97: with a previous code a step appends one record. -/
theorem Dec.appended_of_prev {d : Dec} (hi : d.i ≠ Config.clear) (b : Byte) :
    d.appended b = decAppend d.i b d.dict := by
  rw [Dec.appended, if_neg hi]
  rfl

/-- R95: a nonempty string that is extended by the first byte of the result begins with that byte. -/
theorem exists_cons_of_append {b : Byte} {t u : List Byte} (h : b :: t = u ++ [b]) (hu : 1 ≤ u.length) :
    ∃ w, u = b :: w := by
  cases u with
  | nil => simp at hu
  | cons b' w => exact ⟨w, by rw [(List.cons.inj h).1]⟩

/-- R95: the string of the record just appended is the string of its prefix, in the store before, and its
byte. -/
theorem Spells.of_appended {d : List DecRecord} {p k : Code} {b : Byte} {t : List Byte}
    (h : Spells (decAppend p b d) k t) (hdown : PrefixesDown (decAppend p b d)) (hk : k.toNat = d.length)
    (hclear : k ≠ Config.clear) : ∃ u, Spells d p u ∧ t = u ++ [b] := by
  obtain ⟨r, u, hr, hu, rfl⟩ := h.exists_record hclear
  have hpre := hdown _ r hr
  rw [hk] at hr hpre
  obtain rfl := Option.some.inj ((decRead_append_new p b d).symm.trans hr)
  exact ⟨u, hu.of_append hdown hpre, rfl⟩

/-- R95, R97: past the capacity check, a code whose string begins with `b` in the store the step leaves is
decoded, be it in the store already or the code of the record the step appends. -/
theorem decodeCode_of_appended {s : State} {k : Code} {b : Byte} {t : List Byte} (hsink : s.sink = [])
    (hsize : s.dec.size ≠ Config.capacity) (hdown : PrefixesDown (s.dec.appended b))
    (hs : Spells (s.dec.appended b) k (b :: t)) (hlt : k.toNat < (s.dec.appended b).length) :
    decodeCode k s = .go (s.decoded k (b :: t) (s.dec.appended b)) := by
  by_cases hl : k.toNat < s.dec.size
  · exact decodeCode_known_accept hl (hs.of_append hdown (.inr hl)) (sinkAccepts_of_nil hsink _)
  · by_cases hi : s.dec.i = Config.clear
    · rw [Dec.appended_of_first hi] at hlt
      exact absurd hlt hl
    · rw [Dec.appended_of_prev hi] at hdown hs hlt ⊢
      have hlen : (decAppend s.dec.i b s.dec.dict).length = s.dec.size + 1 := List.length_append
      have hself : k.toNat = s.dec.size := by omega
      obtain ⟨u, hu, ht⟩ := hs.of_appended hdown hself hs.ne_clear
      obtain ⟨w, rfl⟩ := exists_cons_of_append ht (hu.length_pos hi)
      have hr := rebuildString_of_spells hu
      rw [decodeCode_self_next hself hi hr (rebuildString_appended hself hsize hr), ht, emitAndAdvance_accept]
      · rfl
      · exact sinkAccepts_of_nil hsink _

/-- R93: the decoder set after the capacity check of `DEC.CODE`. -/
def Dec.checked (d : Dec) : Dec :=
  { d with dict := if d.size = Config.capacity then decBase else d.dict }

theorem decCapacityCheck_eq_checked (s : State) : decCapacityCheck s = s.withDec s.dec.checked :=
  decCapacityCheck_eq s

theorem Dec.size_checked_ne (d : Dec) : d.checked.size ≠ Config.capacity := by
  have hsize := size_decCapacityCheck_ne (State.reset.withDec d)
  rwa [decCapacityCheck_eq_checked] at hsize

/-- R116: the decoder has consumed every code the encoder emitted: the encoder's match spells `b :: t`, and the
encoder store is what the decoder's will be once it reads a code whose string begins with `b`. -/
structure Synced (e : Enc) (d : Dec) (b : Byte) (t : List Byte) : Prop where
  spells : Spells (encRecords e.dict) e.i (b :: t)
  store : encRecords e.dict = d.checked.appended b

/-- R39, R91, R112: a state in which the decoder waits for the first byte of a code, on a channel that never
fails. -/
structure State.AtCode (s : State) : Prop where
  mode : s.mode = .decompress
  sink : s.sink = []
  phase : s.dec.phase = .run
  whole : s.dec.holdValid = false

/-- R102: between codes `DEC.END` ends the run well. -/
theorem State.AtCode.execDecEnd_eq {s : State} (h : s.AtCode) :
    execDecEnd s = .next (s.withDec { s.dec with phase := .done }) :=
  (execDecEnd_running h.mode h.phase).trans (if_neg (by simp [h.whole]))

/-- R91, R92: the state in which the second wire byte of a code runs `DEC.CODE`. -/
def State.received (s : State) (k : Code) : State :=
  s.withDec { s.dec with
    k := k, hold := wireFirst s.byteOrder k, inPos := s.dec.inPos + 2, holdValid := false }

/-- R91: the two wire bytes of a code are one `DEC.CODE`. -/
theorem State.AtCode.execAll_wire {s t : State} {k : Code} (h : s.AtCode)
    (ht : (decodeCode k (decCapacityCheck (s.received k))).finish = .next t) (is : List Instr) :
    execAll (.decIn (wireFirst s.byteOrder k) :: .decIn (wireSecond s.byteOrder k) :: is) s = execAll is t := by
  have hfirst := execDecIn_first (wireFirst s.byteOrder k) h.mode h.phase h.whole
  have hsecond := execDecIn_second (s := s.withDec { s.dec with
    inPos := s.dec.inPos + 1, hold := wireFirst s.byteOrder k, holdValid := true })
    (wireSecond s.byteOrder k) h.mode h.phase rfl
  simp only [State.withDec_byteOrder, State.withDec_dec, assembleCode_wire] at hsecond
  exact (execAll_cons (i := .decIn _) hfirst).trans (execAll_cons (i := .decIn _) (hsecond.trans ht))

/-- R116: the code of the encoder's match gives back its string, and the decoder store becomes the encoder's. -/
theorem State.AtCode.execAll_match {s : State} {e : Enc} {b : Byte} {t : List Byte} (h : s.AtCode)
    (he : e.Running) (hs : Synced e s.dec b t) :
    ∃ u, u.AtCode ∧ u.byteOrder = s.byteOrder ∧ u.output = s.output ++ b :: t ∧ u.dec.i = e.i ∧
      u.dec.dict = encRecords e.dict ∧
      ∀ is, execAll (.decIn (wireFirst s.byteOrder e.i) :: .decIn (wireSecond s.byteOrder e.i) :: is) s =
        execAll is u := by
  have hdown := (he.inv.storeOk he.phase).prefixesDown
  have hspells := hs.spells
  have hlt : e.i.toNat < (encRecords e.dict).length := by
    rw [length_encRecords]
    exact (he.inv.matchOk (.inl he.phase)).known hspells.ne_clear
  rw [hs.store] at hdown hspells hlt
  have hdecode := decodeCode_of_appended (s := (s.received e.i).withDec (s.received e.i).dec.checked)
    h.sink (Dec.size_checked_ne _) hdown hspells hlt
  have hcheck := congrArg (fun u => (decodeCode e.i u).finish) (decCapacityCheck_eq_checked (s.received e.i))
  refine ⟨_, ?_, ?_, ?_, ?_, ?_, h.execAll_wire (hcheck.trans (congrArg Flow.finish hdecode))⟩
  · exact ⟨h.mode, by simp [State.decoded, State.received, h.sink], h.phase, rfl⟩
  · rfl
  · rfl
  · rfl
  · exact hs.store.symm

/-! ### The decoder follows the encoder (R116) -/

/-- R82, R87 item 5: at capacity `ENC.BYTE` misses, so a hit finds the store as it is. -/
theorem Enc.Running.checked_of_hit {e : Enc} (h : e.Running) {c : Byte} {r : Code}
    (hl : encLookup e.i c e.checked.dict = some r) : e.checked = e := by
  by_cases hsize : e.size = Config.capacity
  · have hbase := (h.inv.matchOk (.inl h.phase)).full hsize
    have hnone := encLookup_encBase_none (ne_clear_of_lt hbase (by decide)) c
    rw [Enc.checked, if_pos hsize, hnone] at hl
    cases hl
  · rw [Enc.checked, if_neg hsize]

/-- R84: a hit adds its byte to the match. -/
theorem Synced.hit {e : Enc} {d : Dec} {b c : Byte} {t : List Byte} {r : Code} (hs : Synced e d b t)
    (he : e.Running) (hl : encLookup e.i c e.checked.dict = some r) : Synced (e.next c) d b (t ++ [c]) := by
  have hchecked := he.checked_of_hit hl
  rw [Enc.next_hit hl, hchecked]
  rw [hchecked] at hl
  exact ⟨(he.inv.storeOk he.phase).spells_of_lookup hl hs.spells, hs.store⟩

/-- R54: the base code of a byte spells the byte. -/
theorem EncStoreOk.spells_baseCode {dict : List EncEntry} (h : EncStoreOk dict) (c : Byte) :
    Spells (encRecords dict) (baseCode c) [c] :=
  h.spells_of_lookup (h.lookup_base c) .clear

/-- R77, R93: both stores have reached capacity when they are the same. -/
theorem encRecords_checked {e : Enc} {d : Dec} (h : d.dict = encRecords e.dict) :
    encRecords e.checked.dict = d.checked.dict := by
  have hsize : d.size = e.size := (congrArg List.length h).trans (length_encRecords _)
  simp only [Enc.checked, Dec.checked, hsize]
  split_ifs
  · exact encRecords_encBase
  · exact h.symm

/-- R83: after a miss, and the code of the last match at the decoder, the match is the byte. -/
theorem Synced.of_miss {e : Enc} {d : Dec} {c : Byte} (he : e.Running)
    (hl : encLookup e.i c e.checked.dict = none) (hi : d.i = e.i) (hdict : d.dict = encRecords e.dict) :
    Synced (e.next c) d c [] := by
  have hnext := he.next c
  have hstore := hnext.inv.storeOk hnext.phase
  have hclear : d.i ≠ Config.clear := hi ▸ he.ready.ne_clear_of_miss hl
  rw [Enc.next_miss hl] at hstore ⊢
  refine ⟨hstore.spells_baseCode c, ?_⟩
  rw [encRecords_encInsert, encRecords_checked hdict, Dec.appended_of_prev (d := d.checked) hclear, ← hi]
  rfl

/-- R83, R84: the first byte of a run is a hit, and the match is its base code. -/
theorem Enc.fresh_next (c : Byte) : Enc.fresh.emits c = [] ∧
    Enc.fresh.next c = { Enc.fresh with i := baseCode c, inPos := 1 } := by
  have hl : encLookup Enc.fresh.i c Enc.fresh.checked.dict = some (baseCode c) :=
    Enc.Running.fresh.ready.store.lookup_base c
  exact ⟨Enc.emits_hit hl, by rw [Enc.next_hit hl, Enc.Running.fresh.checked_of_hit hl]; rfl⟩

/-- R80, R90: after the first byte of a run, at a decoder that has just been started, the match is the byte. -/
theorem Synced.start (s : State) (c : Byte) : Synced (Enc.fresh.next c) (startDecoder s).dec c [] := by
  rw [(Enc.fresh_next c).2]
  refine ⟨EncStoreOk.ofBase.spells_baseCode c, ?_⟩
  have hsize : (startDecoder s).dec.size ≠ Config.capacity := size_reseedDecoder_ne_capacity s
  rw [Dec.checked, if_neg hsize]
  exact encRecords_encBase.trans (List.append_nil _).symm

/-- R116: the codes of the rest of a run give back the match and the bytes that are left. -/
theorem State.AtCode.execAll_codes {s : State} {e : Enc} {b : Byte} {t : List Byte} (h : s.AtCode)
    (he : e.Running) (hs : Synced e s.dec b t) (x : List Byte) :
    ∃ v, execAll ((wireBytes s.byteOrder (e.codes x)).map .decIn ++ [.decEnd]) s = .next v ∧
      v.dec.phase = .done ∧ v.output = s.output ++ b :: t ++ x := by
  induction x generalizing s e b t with
  | nil =>
    obtain ⟨u, hu, -, hout, -, -, hrun⟩ := h.execAll_match he hs
    refine ⟨u.withDec { u.dec with phase := .done }, ?_, rfl, hout.trans (List.append_nil _).symm⟩
    rw [Enc.codes, Enc.flush, if_neg hs.spells.ne_clear]
    exact (hrun _).trans (execAll_cons (i := .decEnd) hu.execDecEnd_eq)
  | cons c x ih =>
    rw [Enc.codes]
    cases hl : encLookup e.i c e.checked.dict with
    | some r =>
      obtain ⟨v, hrun, hdone, hout⟩ := ih h (he.next c) (hs.hit he hl)
      rw [Enc.emits_hit hl]
      exact ⟨v, hrun, hdone, by simpa using hout⟩
    | none =>
      obtain ⟨u, hu, horder, hout, hi, hdict, hmatch⟩ := h.execAll_match he hs
      obtain ⟨v, hrun, hdone, hrest⟩ := ih hu (he.next c) (.of_miss he hl hi hdict)
      rw [Enc.emits_miss hl]
      rw [horder] at hrun
      exact ⟨v, (hmatch _).trans hrun, hdone, by simpa [hout] using hrest⟩

theorem State.AtCode.start {s : State} (hm : s.mode = .decompress) (hs : s.sink = []) :
    (startDecoder s).AtCode :=
  ⟨hm, hs, rfl, rfl⟩

/-- R116: `decode` of the codes of an input gives back the input. -/
theorem execAll_decodeMacro {s : State} (hm : s.mode = .decompress) (hp : s.dec.phase ≠ .run)
    (hs : s.sink = []) (x : List Byte) :
    ∃ v, execAll (decodeMacro (wireBytes s.byteOrder (Enc.fresh.codes x))) s = .next v ∧ v.dec.phase = .done ∧
      v.output = s.output ++ x := by
  have hstart := execAll_cons (i := .decStart) (is := (wireBytes s.byteOrder (Enc.fresh.codes x)).map .decIn ++
    [.decEnd]) (execDecStart_eq hm hp)
  have hcode := State.AtCode.start hm hs
  cases x with
  | nil =>
    exact ⟨_, hstart.trans (execAll_cons (i := .decEnd) hcode.execDecEnd_eq), rfl, (List.append_nil _).symm⟩
  | cons c x =>
    obtain ⟨v, hrun, hdone, hout⟩ := hcode.execAll_codes (Enc.Running.fresh.next c) (.start s c) x
    refine ⟨v, hstart.trans ?_, hdone, hout.trans (List.append_assoc _ _ _)⟩
    rw [Enc.codes, (Enc.fresh_next c).1]
    exact hrun

/-- Settles O56: the encoder writes the codes of the input, and the decoder follows it code by code. -/
theorem decodeInvertsEncodeOnEveryInput : Obligations.DecodeInvertsEncodeOnEveryInput := by
  intro x s hm hp hs
  obtain ⟨e, hrun, hdone, -, -⟩ := execAll_encodeMacro hm hp hs x
  refine ⟨_, _, hrun, hdone, rfl, fun u hmu hpu hsu horder => ?_⟩
  rw [← horder]
  exact execAll_decodeMacro hmu hpu hsu x

/-! ### The empty and the one-byte input (R117) -/

/-- R87, R117: the base code of the one byte is the match that `ENC.END` emits. -/
theorem Enc.fresh_codes_singleton (b : Byte) : Enc.fresh.codes [b] = [baseCode b] := by
  obtain ⟨hemits, hnext⟩ := Enc.fresh_next b
  have hi : (Enc.fresh.next b).i ≠ Config.clear := Enc.Running.fresh.next_ne_clear b
  rw [Enc.codes, hemits, Enc.codes, Enc.flush, if_neg hi, hnext]
  rfl

/-- Settles O55: the two `encode` runs write the codes of their input, and `decode` of nothing is the round trip
of the empty input. -/
theorem emptyAndSingleByteInputs : Obligations.EmptyAndSingleByteInputs := by
  refine fun s b hs => ⟨fun hm hp => ⟨?_, ?_⟩, fun hm hp => ?_⟩
  · obtain ⟨e, hrun, hdone, -, -⟩ := execAll_encodeMacro hm hp hs []
    exact ⟨_, hrun, hdone, List.append_nil _⟩
  · obtain ⟨e, hrun, hdone, hout, -⟩ := execAll_encodeMacro hm hp hs [b]
    rw [Enc.fresh_codes_singleton] at hrun hout
    exact ⟨_, hrun, hdone, hout, by rw [← zext16_eq]; rfl⟩
  · obtain ⟨v, hrun, hdone, hout⟩ := execAll_decodeMacro hm hp hs []
    exact ⟨v, hrun, hdone, hout.trans (List.append_nil _)⟩

/-! ### Operations that are not enabled (R110, R112) -/

/-- R110: between runs `SYS.SELECT` sets `MODE`. -/
theorem execSysSelect_eq (m : Mode) {s : State} (he : s.enc.phase ≠ .run) (hd : s.dec.phase ≠ .run) :
    execSysSelect m s = .next (s.withMode m) := by
  rw [execSysSelect, if_neg (not_or.mpr ⟨he, hd⟩)]

/-- R112: during a run `SYS.SELECT` has no step. -/
theorem sysSelect_refused (m : Mode) {s : State} (h : s.enc.phase = .run ∨ s.dec.phase = .run) :
    IsRefused (execSysSelect m s) :=
  ⟨.selectDuringRun, if_pos h⟩

/-- Settles O10, by whether a machine is in `RUN`. -/
theorem selectSetsTheModeBetweenRuns : Obligations.SelectSetsTheModeBetweenRuns := fun m _ =>
  ⟨execSysSelect_eq m, sysSelect_refused m, rfl, rfl⟩

section Refused
variable {s : State}

/-- R112: what an encoder guard refuses. -/
theorem whenRunning_encoder_refused {body : State → Result} (h : s.mode ≠ .compress ∨ s.enc.phase ≠ .run) :
    IsRefused (whenRunning .encoder s body) :=
  whenRunning_refused body (by simpa using h)

/-- R112: what a decoder guard refuses. -/
theorem whenRunning_decoder_refused {body : State → Result} (h : s.mode ≠ .decompress ∨ s.dec.phase ≠ .run) :
    IsRefused (whenRunning .decoder s body) :=
  whenRunning_refused body (by simpa using h)

theorem encStart_refused (h : s.mode ≠ .compress ∨ s.enc.phase = .run) : IsRefused (execEncStart s) :=
  whenStartable_refused _ (by simpa using h)

theorem encByte_refused (c : Byte) (h : s.mode ≠ .compress ∨ s.enc.phase ≠ .run) :
    IsRefused (execEncByte c s) :=
  whenRunning_encoder_refused h

theorem encEnd_refused (h : s.mode ≠ .compress ∨ s.enc.phase ≠ .run) : IsRefused (execEncEnd s) :=
  whenRunning_encoder_refused h

theorem decStart_refused (h : s.mode ≠ .decompress ∨ s.dec.phase = .run) : IsRefused (execDecStart s) :=
  whenStartable_refused _ (by simpa using h)

theorem decIn_refused (b : Byte) (h : s.mode ≠ .decompress ∨ s.dec.phase ≠ .run) :
    IsRefused (execDecIn b s) :=
  whenRunning_decoder_refused h

theorem decEnd_refused (h : s.mode ≠ .decompress ∨ s.dec.phase ≠ .run) : IsRefused (execDecEnd s) :=
  whenRunning_decoder_refused h

theorem decCode_refused {i : Instr} {k : Code} (hi : i = .decCodeClear ∨ IsDecCode i k)
    (h : s.mode ≠ .decompress ∨ s.dec.phase ≠ .run) : IsRefused (exec i s) := by
  obtain ⟨c, hexec⟩ := exists_decCodeStep hi
  rw [hexec]
  exact whenRunning_decoder_refused h

end Refused

theorem t10Reserved_refused (s : State) : IsRefused (execT10Reserved s) := ⟨.reservedKind, rfl⟩

/-- Settles O11: each guard refuses by the selection or by the phase. -/
theorem disabledOperationsAreRefused : Obligations.DisabledOperationsAreRefused := fun s c _ _ hi =>
  ⟨fun hm => ⟨encStart_refused (.inl hm), encByte_refused c (.inl hm), encEnd_refused (.inl hm)⟩,
    fun hp => ⟨encByte_refused c (.inr hp), encEnd_refused (.inr hp)⟩,
    fun hp => encStart_refused (.inr hp),
    fun hm => ⟨decStart_refused (.inl hm), decIn_refused c (.inl hm), decCode_refused hi (.inl hm),
      decEnd_refused (.inl hm)⟩,
    fun hp => ⟨decIn_refused c (.inr hp), decCode_refused hi (.inr hp), decEnd_refused (.inr hp)⟩,
    fun hp => decStart_refused (.inr hp),
    fun hrun m => sysSelect_refused m hrun,
    t10Reserved_refused s⟩

/-! ### `T10` words by kind (R58) -/

/-- R58: a `T10` word is its kind and its data. -/
theorem t10Word_kind_data (w : BitVec 10) : t10Word (t10Kind w) (t10Data w) = w :=
  (BitVec.extractLsb'_append_extractLsb'_eq_extractLsb' rfl).trans BitVec.extractLsb'_eq_self

/-- R58: the four kinds of a `T10` word. -/
theorem t10_cases (w : BitVec 10) : ∃ data, w = t10Word 0b00#2 data ∨ w = t10Word 0b01#2 data ∨
    w = t10Word 0b10#2 data ∨ w = t10Word 0b11#2 data := by
  have hkind : ∀ k : BitVec 2, k = 0b00#2 ∨ k = 0b01#2 ∨ k = 0b10#2 ∨ k = 0b11#2 := by decide
  have hw := t10Word_kind_data w
  refine ⟨t10Data w, ?_⟩
  rcases hkind (t10Kind w) with h | h | h | h <;> rw [h] at hw
  · exact .inl hw.symm
  · exact .inr (.inl hw.symm)
  · exact .inr (.inr (.inl hw.symm))
  · exact .inr (.inr (.inr hw.symm))

/-- R58, R110: a `T10` word is an operation of the selected machine. -/
theorem step_transaction {s : State} {w : BitVec 10} {rest : List HostEvent} {m : Mode}
    (hin : s.input = .transaction w :: rest) (hm : s.mode = m) :
    step s = exec (decodeT10 m w) (s.withInput rest) := by
  rw [← hm, step_of_fetch_instr (fetch_transaction hin)]

/-! ### A machine in `FAULT` (R112, R132) -/

section Fault
variable {s : State} {rest : List HostEvent}

/-- R112, log 13: a whole code is refused outside a run of the decoder, held byte or not. -/
theorem step_code_refused {w : BitVec 16} (hin : s.input = .code w :: rest)
    (h : s.mode ≠ .decompress ∨ s.dec.phase ≠ .run) : IsRefused (step s) := by
  cases hv : s.dec.holdValid with
  | true => exact ⟨_, step_of_fetch_nothing (fetch_code_misaligned hin hv)⟩
  | false =>
    rw [step_of_fetch_instr (fetch_code hin hv), exec_decodeDecCode]
    exact whenRunning_decoder_refused h

/-- R112, R132: `T10` words at an encoder in `FAULT`. -/
theorem step_transaction_encFault {w : BitVec 10} (hin : s.input = .transaction w :: rest)
    (hm : s.mode = .compress) (hp : s.enc.phase = .fault) :
    (decodeT10 .compress w = .encStart → ∃ t, step s = .next t ∧ t.enc.phase = .run ∧ t.enc.fault = .none) ∧
      (decodeT10 .compress w ≠ .encStart → IsRefused (step s)) := by
  have hstopped : s.enc.phase ≠ .run := by simp [hp]
  rw [step_transaction hin hm]
  refine ⟨fun hd => ?_, fun hd => ?_⟩
  · rw [hd]
    exact ⟨_, execEncStart_eq (s := s.withInput rest) hm hstopped, rfl, rfl⟩
  · obtain ⟨data, rfl | rfl | rfl | rfl⟩ := t10_cases w
    · exact absurd (decodeT10_encStart data) hd
    · rw [decodeT10_encByte]
      exact encByte_refused (s := s.withInput rest) data (.inr hstopped)
    · rw [decodeT10_encEnd]
      exact encEnd_refused (s := s.withInput rest) (.inr hstopped)
    · rw [decodeT10_reserved]
      exact t10Reserved_refused (s.withInput rest)

/-- R112, R132: `T10` words at a decoder in `FAULT`. -/
theorem step_transaction_decFault {w : BitVec 10} (hin : s.input = .transaction w :: rest)
    (hm : s.mode = .decompress) (hp : s.dec.phase = .fault) :
    (decodeT10 .decompress w = .decStart → ∃ t, step s = .next t ∧ t.dec.phase = .run ∧ t.dec.fault = .none) ∧
      (decodeT10 .decompress w ≠ .decStart → IsRefused (step s)) := by
  have hstopped : s.dec.phase ≠ .run := by simp [hp]
  rw [step_transaction hin hm]
  refine ⟨fun hd => ?_, fun hd => ?_⟩
  · rw [hd]
    exact ⟨_, execDecStart_eq (s := s.withInput rest) hm hstopped, rfl, rfl⟩
  · obtain ⟨data, rfl | rfl | rfl | rfl⟩ := t10_cases w
    · exact absurd (decodeT10_decStart data) hd
    · rw [decodeT10_decIn]
      exact decIn_refused (s := s.withInput rest) data (.inr hstopped)
    · rw [decodeT10_decEnd]
      exact decEnd_refused (s := s.withInput rest) (.inr hstopped)
    · rw [decodeT10_reserved]
      exact t10Reserved_refused (s.withInput rest)

end Fault

/-- Settles O13, by the kind of the event. -/
theorem onlyStartLeavesFault : Obligations.OnlyStartLeavesFault := by
  refine fun s rest => ⟨fun hm hp => ⟨fun w hin => ?_, fun w hin => ?_, fun e hin => ?_⟩,
    fun hm hp => ⟨fun w hin => ?_, fun w hin => ?_, fun e hin => ?_⟩⟩
  · rw [hm]
    simpa [decode] using step_transaction_encFault hin hm hp
  · exact step_code_refused hin (.inl (by simp [hm]))
  · exact step_readFailure_refused hin (selectedAgent_encoder.mpr hm) (by simp [hp])
  · rw [hm]
    simpa [decode] using step_transaction_decFault hin hm hp
  · exact step_code_refused hin (.inr (by simp [hp]))
  · exact step_readFailure_refused hin (selectedAgent_decoder.mpr hm) (by simp [hp])

/-! ### How the phases move (R111) -/

/-- R58: the next event is a `T10` word of the given kind. -/
def State.NextKind (s : State) (kind : BitVec 2) : Prop :=
  ∃ data rest, s.input = .transaction (t10Word kind data) :: rest

/-- R111: the rows of the transition table, for one machine. -/
def PhaseMoves (a : Agent) (s t : State) : Prop :=
  t.phaseOf a = s.phaseOf a ∨
    (selectedAgent s.mode = a ∧ s.phaseOf a ≠ .run ∧ t.phaseOf a = .run ∧ s.NextKind 0b00#2) ∨
    (selectedAgent s.mode = a ∧ s.phaseOf a = .run ∧ t.phaseOf a = .done ∧ s.NextKind 0b10#2) ∨
    (selectedAgent s.mode = a ∧ s.phaseOf a = .run ∧ t.phaseOf a = .fault)

/-! #### What each operation makes of the phase of its machine -/

theorem encStart_phase {s t : State} (h : execEncStart s = .next t) :
    selectedAgent s.mode = .encoder ∧ s.enc.phase ≠ .run ∧ t.enc.phase = .run := by
  obtain ⟨hm, hp, hb⟩ := whenStartable_next h
  cases hb
  exact ⟨hm, hp, rfl⟩

theorem decStart_phase {s t : State} (h : execDecStart s = .next t) :
    selectedAgent s.mode = .decoder ∧ s.dec.phase ≠ .run ∧ t.dec.phase = .run := by
  obtain ⟨hm, hp, hb⟩ := whenStartable_next h
  cases hb
  exact ⟨hm, hp, rfl⟩

theorem encByte_phase {s t : State} {c : Byte} (h : execEncByte c s = .next t) :
    t.enc.phase = s.enc.phase ∨ t.enc.phase = .fault := by
  obtain ⟨-, -, hb⟩ := whenRunning_next h
  rw [encCapacityCheck_eq_checked] at hb
  cases hl : encLookup s.enc.i c s.enc.checked.dict with
  | some r =>
    rw [encLookupStep_hit (s := s.withEnc s.enc.checked) hl] at hb
    cases hb
    exact .inl rfl
  | none =>
    rw [encLookupStep_miss (s := s.withEnc s.enc.checked) hl] at hb
    rcases encMiss_cases c (s.withEnc s.enc.checked) with ⟨-, he⟩ | ⟨-, he⟩ | ⟨-, e, -, he⟩ | ⟨-, e, -, he⟩ <;>
      rw [he] at hb <;> cases hb
    · exact .inl rfl
    · exact .inl rfl
    · exact .inr rfl
    · exact .inr rfl

theorem encEnd_phase {s t : State} (h : execEncEnd s = .next t) :
    t.enc.phase = .done ∨ t.enc.phase = .fault := by
  obtain ⟨hm, hp, -⟩ := whenRunning_next h
  rcases encEnd_cases s hm hp with ⟨-, he⟩ | ⟨-, he⟩ | ⟨-, e, -, he⟩ | ⟨-, e, -, he⟩ <;>
    rw [he] at h <;> cases h
  · exact .inl rfl
  · exact .inl rfl
  · exact .inr rfl
  · exact .inr rfl

theorem decCodeStep_phase {s t : State} {k : Code} (h : decCodeStep k s = .next t) :
    t.dec.phase = s.dec.phase ∨ t.dec.phase = .fault := by
  have hends := codeEnds_of_decodeCode h
  rw [decCapacityCheck_eq] at hends
  cases hends with
  | faulted hphase => exact .inr hphase
  | completed str dict _ _ _ ht => exact .inl (by rw [ht]; rfl)

theorem decIn_phase {s t : State} {b : Byte} (h : execDecIn b s = .next t) :
    t.dec.phase = s.dec.phase ∨ t.dec.phase = .fault := by
  rcases (execDecIn_next h).2 with ⟨-, rfl⟩ | ⟨-, hcode⟩
  · exact .inl rfl
  · exact (decCodeStep_phase hcode :)

theorem decEnd_phase {s t : State} (h : execDecEnd s = .next t) :
    t.dec.phase = .done ∨ t.dec.phase = .fault := by
  obtain ⟨-, -, hb⟩ := whenRunning_next h
  split at hb <;> cases hb
  · exact .inr rfl
  · exact .inl rfl

/-! #### What each event makes of the phases -/

section Moves
variable {s t u : State} {a : Agent}

/-- R115: an operation of the encoder keeps the decoder's phase. -/
theorem phaseMoves_of_encoderOp {i : Instr} (hi : isEncoderOp i = true) (h : exec i u = .next t)
    (hu : u.dec.phase = s.dec.phase) : PhaseMoves .decoder s t :=
  .inl ((congrArg Dec.phase (exec_encoder_frame hi h).1).trans hu)

/-- R115: an operation of the decoder keeps the encoder's phase. -/
theorem phaseMoves_of_decoderOp {i : Instr} (hi : isDecoderOp i = true) (h : exec i u = .next t)
    (hu : u.enc.phase = s.enc.phase) : PhaseMoves .encoder s t :=
  .inl ((congrArg Enc.phase (exec_decoder_frame hi h).1).trans hu)

/-- R111: the row of `START`. -/
theorem phaseMoves_of_start (hm : selectedAgent s.mode = a) (hp : s.phaseOf a ≠ .run)
    (ht : t.phaseOf a = .run) (hin : s.NextKind 0b00#2) : PhaseMoves a s t :=
  .inr (.inl ⟨hm, hp, ht, hin⟩)

/-- R111: a fault, from `RUN`. -/
theorem phaseMoves_of_fault (hm : selectedAgent s.mode = a) (hp : s.phaseOf a = .run)
    (ht : t.phaseOf a = .fault) : PhaseMoves a s t :=
  .inr (.inr (.inr ⟨hm, hp, ht⟩))

/-- R111: a data operation stays in `RUN` or faults. -/
theorem phaseMoves_of_data (hm : selectedAgent s.mode = a) (hp : s.phaseOf a = .run)
    (h : t.phaseOf a = s.phaseOf a ∨ t.phaseOf a = .fault) : PhaseMoves a s t :=
  h.elim .inl (phaseMoves_of_fault hm hp)

/-- R111: `END` ends the run well or faults. -/
theorem phaseMoves_of_end (hm : selectedAgent s.mode = a) (hp : s.phaseOf a = .run) (hin : s.NextKind 0b10#2)
    (h : t.phaseOf a = .done ∨ t.phaseOf a = .fault) : PhaseMoves a s t :=
  h.elim (fun ht => .inr (.inr (.inl ⟨hm, hp, ht, hin⟩))) (phaseMoves_of_fault hm hp)

/-- R111: a `T10` word with the encoder selected. -/
theorem phaseMoves_of_compress {w : BitVec 10} {rest : List HostEvent} (hin : s.input = .transaction w :: rest)
    (hmode : s.mode = .compress) (h : step s = .next t) :
    PhaseMoves .encoder s t ∧ PhaseMoves .decoder s t := by
  rw [step_transaction hin hmode] at h
  obtain ⟨data, rfl | rfl | rfl | rfl⟩ := t10_cases w
  · rw [decodeT10_encStart] at h
    obtain ⟨hm, hp, hrun⟩ := encStart_phase (s := s.withInput rest) h
    exact ⟨phaseMoves_of_start hm hp hrun ⟨data, rest, hin⟩, phaseMoves_of_encoderOp (i := .encStart) rfl h rfl⟩
  · rw [decodeT10_encByte] at h
    have hb : execEncByte data (s.withInput rest) = .next t := h
    obtain ⟨hm, hp, -⟩ := whenRunning_next hb
    exact ⟨phaseMoves_of_data hm hp (encByte_phase hb :),
      phaseMoves_of_encoderOp (i := .encByte data) rfl h rfl⟩
  · rw [decodeT10_encEnd] at h
    have hb : execEncEnd (s.withInput rest) = .next t := h
    obtain ⟨hm, hp, -⟩ := whenRunning_next hb
    exact ⟨phaseMoves_of_end hm hp ⟨data, rest, hin⟩ (encEnd_phase hb :),
      phaseMoves_of_encoderOp (i := .encEnd) rfl h rfl⟩
  · rw [decodeT10_reserved] at h
    cases h

/-- R111: a `T10` word with the decoder selected. -/
theorem phaseMoves_of_decompress {w : BitVec 10} {rest : List HostEvent}
    (hin : s.input = .transaction w :: rest) (hmode : s.mode = .decompress) (h : step s = .next t) :
    PhaseMoves .encoder s t ∧ PhaseMoves .decoder s t := by
  rw [step_transaction hin hmode] at h
  obtain ⟨data, rfl | rfl | rfl | rfl⟩ := t10_cases w
  · rw [decodeT10_decStart] at h
    obtain ⟨hm, hp, hrun⟩ := decStart_phase (s := s.withInput rest) h
    exact ⟨phaseMoves_of_decoderOp (i := .decStart) rfl h rfl, phaseMoves_of_start hm hp hrun ⟨data, rest, hin⟩⟩
  · rw [decodeT10_decIn] at h
    have hb : execDecIn data (s.withInput rest) = .next t := h
    obtain ⟨hm, hp, -⟩ := whenRunning_next hb
    exact ⟨phaseMoves_of_decoderOp (i := .decIn data) rfl h rfl, phaseMoves_of_data hm hp (decIn_phase hb :)⟩
  · rw [decodeT10_decEnd] at h
    have hb : execDecEnd (s.withInput rest) = .next t := h
    obtain ⟨hm, hp, -⟩ := whenRunning_next hb
    exact ⟨phaseMoves_of_decoderOp (i := .decEnd) rfl h rfl,
      phaseMoves_of_end hm hp ⟨data, rest, hin⟩ (decEnd_phase hb :)⟩
  · rw [decodeT10_reserved] at h
    cases h

/-- R111: the other events neither start nor end a run well. -/
theorem phaseMoves_of_step (h : step s = .next t) : PhaseMoves .encoder s t ∧ PhaseMoves .decoder s t := by
  match hin : s.input with
  | [] => cases (step_of_fetch_nothing (fetch_nil hin)).symm.trans h
  | .select w :: rest =>
    rw [step_of_fetch_instr (fetch_select hin), decodeMode1] at h
    split at h
    all_goals
      obtain ⟨-, -, rfl⟩ := execSysSelect_next h
      exact ⟨.inl rfl, .inl rfl⟩
  | .transaction w :: rest =>
    cases hm : s.mode with
    | compress => exact phaseMoves_of_compress hin hm h
    | decompress => exact phaseMoves_of_decompress hin hm h
  | .code w :: rest =>
    cases hv : s.dec.holdValid with
    | true => cases (step_of_fetch_nothing (fetch_code_misaligned hin hv)).symm.trans h
    | false =>
      have hcode := (step_of_fetch_instr (fetch_code hin hv)).symm.trans h
      rw [exec_decodeDecCode] at hcode
      obtain ⟨hm, hp, hb⟩ := whenRunning_next hcode
      exact ⟨phaseMoves_of_decoderOp (i := .decCodeLearned w) rfl hcode rfl,
        phaseMoves_of_data hm hp (decCodeStep_phase hb :)⟩
  | .readFailure e :: rest =>
    have hguard := (step_of_fetch_failed (fetch_readFailure hin)).symm.trans h
    have hp : s.phaseOf (selectedAgent s.mode) = .run := (whenRunning_next hguard).2.1
    cases (step_readFailure hin rfl hp).symm.trans h
    cases hm : s.mode with
    | compress => rw [hm] at hp; exact ⟨phaseMoves_of_fault (by simp [hm]) hp rfl, .inl rfl⟩
    | decompress => rw [hm] at hp; exact ⟨.inl rfl, phaseMoves_of_fault (by simp [hm]) hp rfl⟩

end Moves

/-- Settles O14, by the event a step takes. -/
theorem phasesMoveOnlyAsTheTableSays : Obligations.PhasesMoveOnlyAsTheTableSays := by
  intro s t h
  obtain ⟨henc, hdec⟩ := phaseMoves_of_step h
  rw [PhaseMoves, selectedAgent_encoder] at henc
  rw [PhaseMoves, selectedAgent_decoder] at hdec
  exact ⟨henc, hdec⟩

end Sys2Proof.Machine

/-! ## Reset and hazards (70_reset_and_hazards.md)

Proof of the statement on 70_reset_and_hazards.md, with the lemma it turns on. -/

namespace Sys2Proof.Machine

/-- R140, R141: `startDecoder` writes every field of the decoder set, and only `dec.k` and `dec.hold` with
values that vary with the state. -/
theorem startDecoder_dec_eq_up_to_free (s₁ s₂ : State) :
    { (startDecoder s₁).dec with k := (startDecoder s₂).dec.k, hold := (startDecoder s₂).dec.hold } =
      (startDecoder s₂).dec := rfl

/-- Settles O36: `ENC.START` leaves the encoder set `Enc.fresh` from every startable state, and `DEC.START` the
set of `startDecoder`. -/
theorem startForgetsEarlierRuns : Obligations.StartForgetsEarlierRuns := by
  refine fun s₁ s₂ => ⟨fun hm₁ hm₂ hp₁ hp₂ => ?_, fun hm₁ hm₂ hp₁ hp₂ => ?_⟩
  · exact ⟨s₁.withEnc .fresh, s₂.withEnc .fresh, execEncStart_eq hm₁ hp₁, execEncStart_eq hm₂ hp₂, rfl⟩
  · exact ⟨startDecoder s₁, startDecoder s₂, execDecStart_eq hm₁ hp₁, execDecStart_eq hm₂ hp₂,
      startDecoder_dec_eq_up_to_free s₁ s₂⟩

end Sys2Proof.Machine
